-- ==== Sys2Proof/Word.lean ====
section
/-! DEFINITION. The words of fp_encode_1750a: the port and field widths of 10_state.md rule R18 and 30_encoding.md rule R35. -/

namespace Sys2Proof

/-- A byte of a result (20_memory.md rule R27). -/
abbrev Byte := BitVec 8

/-- An IEEE 754 binary64 bit pattern, the `in_value` port (10_state.md rule R18; 30_encoding.md rule R33). -/
abbrev Binary64 := BitVec 64

/-- The format select, the `in_width` port: a width in bits as an unsigned integer (30_encoding.md rule R36). -/
abbrev WidthCode := BitVec 8

/-- The request word `REQW[71:0]` (30_encoding.md rule R35). -/
abbrev RequestWord := BitVec 72

/-- The result lanes, the `out_data` port (20_memory.md rule R28). -/
abbrev Data := BitVec 48

end Sys2Proof
end

