-- ==== Sys2Proof/Config.lean ====
section
/-! DEFINITION. What an implementation fixes (00_scope.md rule R11) and the values the spec leaves open. None of the opaque
constants here has a body: a statement that mentions one holds whatever it is. -/

namespace Sys2Proof

/-- The two OPEN parameters of one instance (00_scope.md rule R11; 92_eei_decisions.md D12). -/
structure Timing where
  /-- `LATENCY`: rising edges, counting the accepting one, until a response is offered. -/
  latency : Nat
  /-- `DEPTH`: the most accepted requests whose responses are not yet transferred. -/
  depth : Nat
deriving DecidableEq, Repr

/-- Both parameters are integers ≥ 1 (00_scope.md rule R11). -/
def Timing.Legal (c : Timing) : Prop := 1 ≤ c.latency ∧ 1 ≤ c.depth

/-- `LATENCY - 1`, fixed by the implementation. Log entry 6. -/
opaque Config.latencyPred : Nat

/-- `DEPTH - 1`, fixed by the implementation. Log entry 6. -/
opaque Config.depthPred : Nat

/-- `LATENCY`, an integer ≥ 1 (00_scope.md rule R11). -/
def Config.latency : Nat := Config.latencyPred + 1

/-- `DEPTH`, an integer ≥ 1 (00_scope.md rule R11). -/
def Config.depth : Nat := Config.depthPred + 1

/-- The parameters of the instance that `Sys2Proof.core` is. -/
def Config.timing : Timing := { latency := Config.latency, depth := Config.depth }

/-- `rst` in a cycle that the state's script says nothing of. Log entry 3. -/
opaque Config.freeRst : Nat → Bool

/-- `in_valid` in a cycle that the state's script says nothing of. Log entry 3. -/
opaque Config.freeInValid : Nat → Bool

/-- `in_value` in a cycle that the state's script says nothing of. Log entry 3. -/
opaque Config.freeInValue : Nat → Binary64

/-- `in_width` in a cycle that the state's script says nothing of. Log entry 3. -/
opaque Config.freeInWidth : Nat → WidthCode

/-- `out_ready` in a cycle that the state's script says nothing of. Log entry 3. -/
opaque Config.freeOutReady : Nat → Bool

/-- `out_data` in a cycle with `out_valid = 0` (92_eei_decisions.md D14). Log entry 7. -/
opaque Config.freeOutData : Nat → Data

/-- `out_nbytes` in a cycle with `out_valid = 0` (92_eei_decisions.md D14). Log entry 7. -/
opaque Config.freeOutNbytes : Nat → BitVec 3

/-- `out_status` in a cycle with `out_valid = 0` (92_eei_decisions.md D14). Log entry 7. -/
opaque Config.freeOutStatus : Nat → BitVec 2

/-- Which neighbour a literal exactly half way between two binary64 values denotes: the upper one in magnitude if true.
30_encoding.md rule R44 says only "nearest". Log entry 16. -/
opaque Config.literalTieUp : Nat → Nat → Bool

end Sys2Proof
end

