-- ==== Sys2Proof/Syntax.lean ====
section
/-! DEFINITION. The operations of fp_encode_1750a, its requests, and the request syntax of 30_encoding.md rule R44. -/

namespace Sys2Proof

/-- The three output formats (00_scope.md rule R2): 16-bit non-standard, 32-bit standard, 48-bit extended precision. -/
inductive Format where
  | w16
  | w32
  | w48
deriving DecidableEq, Repr

/-- The operations, one constructor per row of `spec/opcode_table.json`, each with its operand `REQ.VALUE`. -/
inductive Instr where
  /-- ENC16 (40_encode.md rule R63). -/
  | enc16 (value : Binary64)
  /-- ENC32 (40_encode.md rule R64). -/
  | enc32 (value : Binary64)
  /-- ENC48 (40_encode.md rule R65). -/
  | enc48 (value : Binary64)
deriving DecidableEq, Repr

/-- The output format of an operation (30_encoding.md rule R36). -/
def Instr.format : Instr → Format
  | .enc16 _ => .w16
  | .enc32 _ => .w32
  | .enc48 _ => .w48

/-- The operand of an operation (30_encoding.md rule R35). -/
def Instr.operand : Instr → Binary64
  | .enc16 v => v
  | .enc32 v => v
  | .enc48 v => v

/-- The fields of a request (10_state.md rule R19). Every pattern of both fields is accepted at the port. -/
structure Request where
  /-- `REQ.WIDTH`. -/
  width : WidthCode
  /-- `REQ.VALUE`. -/
  value : Binary64
deriving DecidableEq, Repr

/-- The operand of an assembler line (30_encoding.md rule R44). A decimal literal and a power-of-two expression are both a
sign and a ratio of naturals; `bits:0x…` gives the pattern directly. -/
inductive Literal where
  | bits (pattern : Binary64)
  | number (negative : Bool) (numerator denominator : Nat)
deriving DecidableEq, Repr

/-- An assembler line (30_encoding.md rule R44). -/
inductive Asm where
  | enc16 (operand : Literal)
  | enc32 (operand : Literal)
  | enc48 (operand : Literal)
  | enc (width : Nat) (operand : Literal)
deriving DecidableEq, Repr

end Sys2Proof
end

