-- ==== Sys2Proof/WellFormed.lean ====
section
/-! DEFINITION. Which terms of the syntax stand for something the spec describes. -/

namespace Sys2Proof

/-- Every 64-bit operand is legal for every operation (10_state.md rule R19; 30_encoding.md rule R43: "No request word is
illegal"), so no instruction is ill-formed. -/
def Instr.wellFormed : Instr → Bool
  | .enc16 _ => true
  | .enc32 _ => true
  | .enc48 _ => true

/-- The width of a request names an operation of the table (30_encoding.md rule R36). The others are answered with
INVALID_WIDTH. -/
def Request.selectsOperation (r : Request) : Bool :=
  r.width == 16 || r.width == 32 || r.width == 48

/-- A literal denotes a number (30_encoding.md rule R44). -/
def Literal.wellFormed : Literal → Bool
  | .bits _ => true
  | .number _ _ denominator => denominator != 0

/-- The width of an assembler line is a decimal integer 0..255 (30_encoding.md rule R44). -/
def Asm.wellFormed : Asm → Bool
  | .enc16 v => v.wellFormed
  | .enc32 v => v.wellFormed
  | .enc48 v => v.wellFormed
  | .enc w v => decide (w < 256) && v.wellFormed

end Sys2Proof
end

