-- ==== Sys2Proof/Decode.lean ====
section
/-! DEFINITION. Decoding and encoding of request words (30_encoding.md rules R35, R36 and R45). -/

namespace Sys2Proof

/-- Why a request word names no operation. -/
inductive DecodeError where
  /-- `REQW[71:64]` is not 16, 32 or 48 (30_encoding.md rule R36). The block answers such a request with INVALID_WIDTH. -/
  | invalidWidth (width : WidthCode)
deriving DecidableEq, Repr

/-- `REQW[71:0] = REQ.WIDTH[7:0] ++ REQ.VALUE[63:0]` (30_encoding.md rule R35). -/
def requestWord (width : WidthCode) (value : Binary64) : RequestWord := width ++ value

/-- `REQW[71:64]` (30_encoding.md rule R35). -/
def widthField (w : RequestWord) : WidthCode := w.extractLsb' 64 8

/-- `REQW[63:0]` (30_encoding.md rule R35). -/
def valueField (w : RequestWord) : Binary64 := w.extractLsb' 0 64

/-- The format a width code selects, if any (30_encoding.md rule R36). -/
def formatOfWidth (width : WidthCode) : Option Format :=
  if width = 0x10 then some .w16
  else if width = 0x20 then some .w32
  else if width = 0x30 then some .w48
  else none

/-- The opcode map (30_encoding.md rule R45): only `REQW[71:64]` decodes a request word. -/
def decode (w : RequestWord) : Except DecodeError Instr :=
  match formatOfWidth (widthField w) with
  | some .w16 => .ok (.enc16 (valueField w))
  | some .w32 => .ok (.enc32 (valueField w))
  | some .w48 => .ok (.enc48 (valueField w))
  | none => .error (.invalidWidth (widthField w))

/-- The request word of an operation (30_encoding.md rule R36). -/
def encode : Instr → RequestWord
  | .enc16 v => requestWord 0x10 v
  | .enc32 v => requestWord 0x20 v
  | .enc48 v => requestWord 0x30 v

/-- The request word in the low `nbits` bits of `w`, every higher bit 0. -/
def tableWord (nbits w : Nat) : RequestWord := BitVec.ofNat 72 (w % 2 ^ nbits)

/-- The instruction the decoder reads from the bits `w`, numbered as `spec/opcode_table.json` numbers them. -/
def decodeTableWord (nbits w : Nat) : Option Instr :=
  match decode (tableWord nbits w) with
  | .ok i => some i
  | .error _ => none

end Sys2Proof
end

