-- ==== Sys2Proof/Machine/State.lean ====
section
/-! DEFINITION. The state of fp_encode_1750a (10_state.md) and the reasons a step can stop. -/

namespace Sys2Proof.Machine

/-- The status of a response (10_state.md rule R21). The reserved code `0b11` is never produced and has no constructor
(93_implementation_defined.md; log entry 14). -/
inductive Status where
  | ok
  | invalidWidth
  | nonfiniteInput
deriving DecidableEq, Repr

/-- A response (10_state.md rule R20). -/
structure Response where
  /-- `RSP.STATUS`. -/
  status : Status
  /-- `RSP.NBYTES`. -/
  nbytes : BitVec 3
  /-- `RSP.DATA`. -/
  data : Data
deriving DecidableEq, Repr

/-- An entry `(rsp, age)` of the in-flight queue (10_state.md rule R24). -/
structure Entry where
  rsp : Response
  /-- Rising edges counted from, and including, the edge that accepted the request. -/
  age : Nat
deriving DecidableEq, Repr

/-- The input ports in one cycle (10_state.md rule R18). `clk` is the step itself. -/
structure Inputs where
  rst : Bool
  inValid : Bool
  inValue : Binary64
  inWidth : WidthCode
  outReady : Bool
deriving DecidableEq, Repr

/-- The machine during one cycle. `queue` is all the state the spec gives the block (10_state.md rule R24); the other three
fields are the model's own record of the world outside the ports (log entries 2, 4 and 5). -/
structure State where
  /-- `Q`, oldest first (10_state.md rule R24). -/
  queue : List Entry
  /-- The input ports, the present cycle first; beyond the end they are free values (log entries 2 and 3). -/
  script : List Inputs
  /-- Rising edges so far, the index of the free values (log entry 4). -/
  cycle : Nat
  /-- The responses the consumer has taken, oldest first (10_state.md rule R17; log entry 5). -/
  delivered : List Response
deriving DecidableEq, Repr

/-- The machine never stops with a fault: an error is a status in its own response (60_exceptions.md rules R72 and R78).
No constructor. -/
inductive Fault where
deriving DecidableEq, Repr

/-- Reasons to give an instruction no meaning. -/
inductive Refusal where
  /-- Raised by an arm of `exec` whose instruction has no meaning yet; safe. No arm raises it. -/
  | notModelled (mnemonic : String)
deriving DecidableEq, Repr

/-- The state after reset (10_state.md rule R25): `Q` empty. Nothing is known of the inputs and nothing is delivered
(log entries 2, 4 and 5). -/
def State.reset : State := { queue := [], script := [], cycle := 0, delivered := [] }

end Sys2Proof.Machine
end

