-- ==== Sys2Proof/Machine/Flags.lean ====
section
/-! DEFINITION. The one programmer-visible flag, `RSP.STATUS`, and the error response (10_state.md rules R21 and R22;
60_exceptions.md rule R72). The block has no sticky flag and no condition code. -/

namespace Sys2Proof.Machine

/-- The status codes (10_state.md rule R21). -/
def Status.code : Status → BitVec 2
  | .ok => 0b00
  | .invalidWidth => 0b01
  | .nonfiniteInput => 0b10

/-- The errors of the block (60_exceptions.md rule R72). -/
inductive ErrorKind where
  /-- 60_exceptions.md rule R73. -/
  | invalidWidth
  /-- 60_exceptions.md rule R74. -/
  | nonfiniteInput
deriving DecidableEq, Repr

/-- The status an error is reported with (60_exceptions.md rule R72). -/
def ErrorKind.status : ErrorKind → Status
  | .invalidWidth => .invalidWidth
  | .nonfiniteInput => .nonfiniteInput

/-- `raise`: the response of a request that ends in an error (00_scope.md rule R16; 60_exceptions.md rule R72). It is all
that an error does: the block has no trap entry, no saved state and no return (60_exceptions.md rule R78). -/
def raiseError (k : ErrorKind) : Response := { status := k.status, nbytes := 0, data := 0 }

end Sys2Proof.Machine
end

