-- ==== Sys2Proof/Machine/Operands.lean ====
section
/-! DEFINITION. The operand: binary64 fields and classes (30_encoding.md rules R33 and R34), the format parameters
(00_scope.md rule R10) and the integer primitives of 00_scope.md rules R12 to R14. -/

namespace Sys2Proof.Machine

/-- `v[hi:lo]` of a natural number (00_scope.md rule R12). -/
def slice (v hi lo : Nat) : Nat := (v >>> lo) % 2 ^ (hi + 1 - lo)

/-- `bitlen(x)` for x ≥ 1 (00_scope.md rule R13). -/
def bitlen (x : Nat) : Nat := x.log2 + 1

/-- `~x` on an N-bit field (00_scope.md rule R13). -/
def complement (n x : Nat) : Nat := 2 ^ n - 1 - x

/-- `sext_N(v)` (00_scope.md rule R14). -/
def sext (n v : Nat) : Int := if v.testBit (n - 1) then (v : Int) - 2 ^ n else v

/-- `tc_N(i)`, the N-bit field `i mod 2^N` (00_scope.md rule R14). -/
def tc (n : Nat) (i : Int) : Nat := (i % 2 ^ n).toNat

/-- `s = v[63]` (30_encoding.md rule R33; 40_encode.md rule R48). -/
def signBit (v : Binary64) : Bool := v.getLsbD 63

/-- `be = v[62:52]` (30_encoding.md rule R33). -/
def biasedExponent (v : Binary64) : Nat := (v.extractLsb' 52 11).toNat

/-- `fr = v[51:0]` (30_encoding.md rule R33). -/
def trailingSignificand (v : Binary64) : Nat := (v.extractLsb' 0 52).toNat

/-- The classes of 30_encoding.md rule R34. -/
inductive FloatClass where
  | zero
  | subnormal
  | normal
  | infinity
  | nan
deriving DecidableEq, Repr

/-- The class of a pattern (30_encoding.md rule R34). -/
def classify (v : Binary64) : FloatClass :=
  if biasedExponent v = 0 then
    if trailingSignificand v = 0 then .zero else .subnormal
  else if biasedExponent v = 2047 then
    if trailingSignificand v = 0 then .infinity else .nan
  else .normal

/-- The magnitude of a finite operand, by class. -/
inductive Magnitude where
  | zero
  | subnormal (fr : Nat)
  | normal (be fr : Nat)
deriving DecidableEq, Repr

/-- The magnitude of a finite pattern; none for an infinity or a NaN (30_encoding.md rule R34). -/
def magnitude (v : Binary64) : Option Magnitude :=
  match classify v with
  | .zero => some .zero
  | .subnormal => some (.subnormal (trailingSignificand v))
  | .normal => some (.normal (biasedExponent v) (trailingSignificand v))
  | .infinity => none
  | .nan => none

/-- A row of the table of 00_scope.md rule R10. -/
structure FormatParams where
  /-- N, the mantissa bits. -/
  mantissaBits : Nat
  /-- X, the exponent bits. -/
  exponentBits : Nat
  /-- EMIN. -/
  emin : Int
  /-- EMAX. -/
  emax : Int
  /-- NBYTES. -/
  nbytes : Nat
deriving DecidableEq, Repr

/-- `Params(WIDTH)` (40_encode.md rule R47; 00_scope.md rule R10). -/
def params : Format → FormatParams
  | .w16 => { mantissaBits := 10, exponentBits := 6, emin := -32, emax := 31, nbytes := 2 }
  | .w32 => { mantissaBits := 24, exponentBits := 8, emin := -128, emax := 127, nbytes := 4 }
  | .w48 => { mantissaBits := 40, exponentBits := 8, emin := -128, emax := 127, nbytes := 6 }

/-- The width code of a format (30_encoding.md rule R36). -/
def widthCode : Format → WidthCode
  | .w16 => 0x10
  | .w32 => 0x20
  | .w48 => 0x30

end Sys2Proof.Machine
end

