-- ==== Sys2Proof/Machine/Encode.lean ====
section
/-! DEFINITION. The conversion function `Encode1750`, step by step (40_encode.md rules R46 to R60), and the packing of the
result bytes (30_encoding.md rules R37 to R40; 20_memory.md rule R28). -/

namespace Sys2Proof.Machine

/-- A mantissa field with its unclamped exponent. -/
structure Scaled where
  mantissa : Nat
  exponent : Int
deriving DecidableEq, Repr

/-- The frexp exponent e (40_encode.md rule R50). -/
def naturalExponent : Magnitude → Int
  | .zero => 0
  | .subnormal fr => (bitlen fr : Int) - 1074
  | .normal be _ => (be : Int) - 1022

/-- Steps 2 and 3, `raw` (40_encode.md rule R52). -/
def rawMantissa (n : Nat) : Magnitude → Nat
  | .zero => 0
  | .subnormal fr => if bitlen fr ≤ n then fr <<< (n - bitlen fr) else fr >>> (bitlen fr - n)
  | .normal _ fr => (2 ^ 52 + fr) >>> (53 - n)

/-- Step 4, `M0`: add the rounding bit and discard it (40_encode.md rule R53). -/
def roundHalfUp (raw : Nat) : Nat := (raw >>> 1) + raw % 2

/-- Step 5, renormalization (40_encode.md rule R55). -/
def renormalize (n m0 : Nat) (e : Int) : Scaled :=
  if m0 = 2 ^ (n - 1) then { mantissa := 2 ^ (n - 2), exponent := e + 1 } else { mantissa := m0, exponent := e }

/-- Step 6, the sign (40_encode.md rule R56). -/
def applySign (n : Nat) (negative : Bool) (m1 : Nat) : Nat :=
  if negative then (complement n m1 + 1) % 2 ^ n else m1

/-- Step 7, the loop (40_encode.md rule R57), with its number of iterations bounded by `fuel`. -/
def normalizeLoop (n : Nat) : Nat → Scaled → Scaled
  | 0, a => a
  | fuel + 1, a =>
    if a.mantissa.testBit (n - 1) && a.mantissa.testBit (n - 2) then
      normalizeLoop n fuel { mantissa := (a.mantissa <<< 1) % 2 ^ n, exponent := a.exponent - 1 }
    else a

/-- Step 8 (40_encode.md rule R59). -/
def clampExponent (p : FormatParams) (e1 : Int) : Int := min p.emax (max p.emin e1)

/-- `M1` and `e1` after step 5 (40_encode.md rules R49 to R55). -/
def roundedMagnitude (p : FormatParams) (mag : Magnitude) : Scaled :=
  renormalize p.mantissaBits (roundHalfUp (rawMantissa p.mantissaBits mag)) (naturalExponent mag)

/-- `m` and `e1` after step 7 (40_encode.md rules R56 and R57). The loop is "bounded by mantissa width" (rule R58; log
entry 11). -/
def normalizedResult (p : FormatParams) (negative : Bool) (mag : Magnitude) : Scaled :=
  normalizeLoop p.mantissaBits p.mantissaBits
    { mantissa := applySign p.mantissaBits negative (roundedMagnitude p mag).mantissa
      exponent := (roundedMagnitude p mag).exponent }

/-- The byte `v[hi:hi-7]`. -/
def byteAt (v hi : Nat) : Byte := BitVec.ofNat 8 (slice v hi (hi - 7))

/-- Step 10, the bytes of a result word, byte 0 first (30_encoding.md rules R37, R38 and R39). -/
def packBytes (f : Format) (m xf : Nat) : List Byte :=
  match f with
  | .w16 => [byteAt m 9, BitVec.ofNat 8 (slice m 1 0 <<< 6 + xf)]
  | .w32 => [byteAt m 23, byteAt m 15, byteAt m 7, byteAt xf 7]
  | .w48 => [byteAt m 39, byteAt m 31, byteAt m 23, byteAt xf 7, byteAt m 15, byteAt m 7]

/-- A byte sequence as one big-endian integer (20_memory.md rules R27 and R28). -/
def bigEndian (bytes : List Byte) : Nat := bytes.foldl (fun acc b => acc <<< 8 + b.toNat) 0

/-- The byte lanes of `out_data`: byte i in `[47-8i : 40-8i]`, the rest 0 (20_memory.md rule R28). -/
def placeBytes (bytes : List Byte) : Data := BitVec.ofNat 48 (bigEndian bytes <<< (48 - 8 * bytes.length))

/-- The response of a successful conversion (40_encode.md rule R60). -/
def okResponse (f : Format) (m xf : Nat) : Response :=
  { status := .ok, nbytes := BitVec.ofNat 3 (params f).nbytes, data := placeBytes (packBytes f m xf) }

/-- Steps 1 to 10 for a finite operand (40_encode.md rules R48 to R60). -/
def encodeFinite (f : Format) (negative : Bool) (mag : Magnitude) : Response :=
  okResponse f (normalizedResult (params f) negative mag).mantissa
    (tc (params f).exponentBits (clampExponent (params f) (normalizedResult (params f) negative mag).exponent))

/-- `Encode1750` (40_encode.md rule R46): the width is tested before the value (60_exceptions.md rule R75). -/
def encode1750 (value : Binary64) (width : WidthCode) : Response :=
  match formatOfWidth width with
  | none => raiseError .invalidWidth
  | some f =>
    match magnitude value with
    | none => raiseError .nonfiniteInput
    | some mag => encodeFinite f (signBit value) mag

/-- The result bytes a response carries, byte 0 first (20_memory.md rules R28 and R29). -/
def responseBytes (r : Response) : List Byte :=
  (List.range r.nbytes.toNat).map fun i => r.data.extractLsb' (40 - 8 * i) 8

end Sys2Proof.Machine
end

