-- ==== Sys2Proof/Machine/Ops.lean ====
section
/-! DEFINITION. The cycle layer (70_reset_and_hazards.md rules R82 to R87): the input ports of a cycle, the outputs, and the
rising edge in its three steps. All of it takes LATENCY and DEPTH as an argument (00_scope.md rule R11). -/

namespace Sys2Proof.Machine

/-- Input ports nobody has said anything of: free values of the cycle's number (log entry 3). DESIGN CHOICE, unsafe for a claim
that compares two runs or two instances: at one cycle number, past their scripts, both get the same inputs, where the spec leaves
each instance's requests to its own requester (20_memory.md rule R32; 60_exceptions.md rule R81). -/
def freeInputs (cycle : Nat) : Inputs :=
  { rst := Config.freeRst cycle
    inValid := Config.freeInValid cycle
    inValue := Config.freeInValue cycle
    inWidth := Config.freeInWidth cycle
    outReady := Config.freeOutReady cycle }

/-- The input ports `k` cycles from now (log entry 2). -/
def State.inputsAt (s : State) (k : Nat) : Inputs :=
  match s.script[k]? with
  | some i => i
  | none => freeInputs (s.cycle + k)

/-- The input ports in the present cycle (10_state.md rule R18). -/
def State.inputs (s : State) : Inputs := s.inputsAt 0

/-- The request word on the input ports (30_encoding.md rule R35). -/
def offeredWord (s : State) : RequestWord := requestWord s.inputs.inWidth s.inputs.inValue

/-- `in_ready` (70_reset_and_hazards.md rule R85). -/
def State.inReady (c : Timing) (s : State) : Bool :=
  !s.inputs.rst && decide (s.queue.length < c.depth)

/-- `out_valid` (70_reset_and_hazards.md rule R85). -/
def State.outValid (c : Timing) (s : State) : Bool :=
  !s.inputs.rst &&
    match s.queue with
    | [] => false
    | e :: _ => decide (c.latency ≤ e.age)

/-- The output ports in one cycle (10_state.md rule R18). -/
structure Outputs where
  inReady : Bool
  outValid : Bool
  outData : Data
  outNbytes : BitVec 3
  outStatus : BitVec 2
deriving DecidableEq, Repr

/-- What a response shows on the output ports while it is offered (70_reset_and_hazards.md rule R85). -/
def offeredOutputs (ready : Bool) (r : Response) : Outputs :=
  { inReady := ready, outValid := true, outData := r.data, outNbytes := r.nbytes, outStatus := r.status.code }

/-- The output ports with no response offered: the three fields are unspecified (92_eei_decisions.md D14; log entry 7). -/
def freeOutputs (ready : Bool) (cycle : Nat) : Outputs :=
  { inReady := ready
    outValid := false
    outData := Config.freeOutData cycle
    outNbytes := Config.freeOutNbytes cycle
    outStatus := Config.freeOutStatus cycle }

/-- The output ports in the present cycle (70_reset_and_hazards.md rule R85). -/
def State.outputs (c : Timing) (s : State) : Outputs :=
  match s.queue with
  | [] => freeOutputs (s.inReady c) s.cycle
  | e :: _ =>
    if s.outValid c then offeredOutputs (s.inReady c) e.rsp else freeOutputs (s.inReady c) s.cycle

/-- An entry one rising edge later (70_reset_and_hazards.md rule R85, step 2). -/
def Entry.older (e : Entry) : Entry := { e with age := e.age + 1 }

/-- Step 1 of a rising edge, the transfer (70_reset_and_hazards.md rules R85 and R87). -/
def transferStep (c : Timing) (s : State) : State :=
  match s.queue with
  | [] => s
  | e :: rest =>
    if s.outValid c && s.inputs.outReady then { s with queue := rest, delivered := s.delivered ++ [e.rsp] } else s

/-- Step 2 of a rising edge, the ageing (70_reset_and_hazards.md rule R85). -/
def ageStep (s : State) : State := { s with queue := s.queue.map Entry.older }

/-- Step 3 of a rising edge, the acceptance (70_reset_and_hazards.md rules R85 and R86). `ready` is `in_ready` of the cycle
that ends at the edge, `offer` the response of the request offered in it. -/
def acceptStep (ready : Bool) (offer : Option Response) (s : State) : State :=
  match offer with
  | none => s
  | some r => if ready then { s with queue := s.queue ++ [{ rsp := r, age := 1 }] } else s

/-- The next cycle begins. -/
def nextCycle (s : State) : State := { s with script := s.script.tail, cycle := s.cycle + 1 }

/-- A rising edge with `rst = 1` (70_reset_and_hazards.md rule R82). -/
def resetEdge (s : State) : State := nextCycle { s with queue := [] }

/-- A rising edge at which a request with the response `offer`, or none, is offered (70_reset_and_hazards.md rules R82
and R85). -/
def clockEdge (c : Timing) (offer : Option Response) (s : State) : State :=
  if s.inputs.rst then resetEdge s
  else nextCycle (acceptStep (s.inReady c) offer (ageStep (transferStep c s)))

/-- The rising edge of 70_reset_and_hazards.md rule R85, with the request taken from the input ports. -/
def cycleEdge (c : Timing) (s : State) : State :=
  clockEdge c (if s.inputs.inValid then some (encode1750 s.inputs.inValue s.inputs.inWidth) else none) s

/-- The edge at which a request with an unsupported width is offered: it is accepted like any other and answered with
INVALID_WIDTH (60_exceptions.md rule R73). -/
def answerInvalidWidth (s : State) : State := clockEdge Config.timing (some (raiseError .invalidWidth)) s

/-- The edge at which no request is offered. -/
def idleEdge (s : State) : State := clockEdge Config.timing none s

end Sys2Proof.Machine
end

