-- ==== Sys2Proof/Machine/Enc.lean ====
section
/-! DEFINITION. The meanings of the three operations (40_encode.md rules R63, R64 and R65). An operation is offered in the
present cycle, and its meaning is the rising edge that ends the cycle: it is accepted there if `in_ready = 1` (log
entry 10). -/

namespace Sys2Proof.Machine

/-- ENC16 (40_encode.md rule R63). -/
def execEnc16 (value : Binary64) (s : State) : Host.Outcome State Fault Refusal :=
  .next (clockEdge Config.timing (some (encode1750 value 0x10)) s)

/-- ENC32 (40_encode.md rule R64). -/
def execEnc32 (value : Binary64) (s : State) : Host.Outcome State Fault Refusal :=
  .next (clockEdge Config.timing (some (encode1750 value 0x20)) s)

/-- ENC48 (40_encode.md rule R65). -/
def execEnc48 (value : Binary64) (s : State) : Host.Outcome State Fault Refusal :=
  .next (clockEdge Config.timing (some (encode1750 value 0x30)) s)

end Sys2Proof.Machine
end

