-- ==== Sys2Proof/Machine/Dispatch.lean ====
section
/-! DEFINITION. One arm per constructor of Instr. -/

namespace Sys2Proof.Machine

def exec (i : Instr) (s : State) : Host.Outcome State Fault Refusal :=
  match i with
  | .enc16 value => Sys2Proof.Machine.execEnc16 value s
  | .enc32 value => Sys2Proof.Machine.execEnc32 value s
  | .enc48 value => Sys2Proof.Machine.execEnc48 value s

end Sys2Proof.Machine
end

