-- ==== Sys2Proof/Machine/Step.lean ====
section
/-! DEFINITION. One step: the rising edge that ends the present cycle (70_reset_and_hazards.md rule R85). -/

namespace Sys2Proof.Machine

/-- One rising edge. A request on the ports is decoded and run; one whose width names no operation is answered with
INVALID_WIDTH (30_encoding.md rule R36; log entry 9). -/
def step (s : State) : Host.Outcome State Fault Refusal :=
  if s.inputs.inValid then
    match decode (offeredWord s) with
    | .ok i => exec i s
    | .error _ => .next (answerInvalidWidth s)
  else .next (idleEdge s)

/-- `s` with the request word `w` offered on the ports in the present cycle, outside reset (log entry 8). -/
def State.withFetchWord (s : State) (nbits w : Nat) : State :=
  { s with
    script :=
      { s.inputs with
        rst := false
        inValid := true
        inValue := valueField (tableWord nbits w)
        inWidth := widthField (tableWord nbits w) } :: s.script.tail }

end Sys2Proof.Machine
end

