-- ==== Sys2Proof/Machine/Assembler.lean ====
section
/-! DEFINITION. The request syntax of 30_encoding.md rule R44, as abstract syntax: the pseudo-forms, the binary64 pattern a
literal denotes ("the binary64 value nearest to it"), and the written form of a response. -/

namespace Sys2Proof.Machine

/-- The pattern of the largest finite binary64 value. -/
def maxFinitePattern : Nat := 0x7FEFFFFFFFFFFFFF

/-- 2^1074 times the value of the non-negative finite pattern `b` (30_encoding.md rule R34). -/
def scaledPattern (b : Nat) : Nat :=
  if b / 2 ^ 52 = 0 then b else (2 ^ 52 + b % 2 ^ 52) * 2 ^ (b / 2 ^ 52 - 1)

/-- The greatest pattern that extends `acc` in its low `k` bits and denotes at most `num / den`. -/
def greatestPattern (num den : Nat) : Nat → Nat → Nat
  | 0, acc => acc
  | k + 1, acc =>
    if acc + 2 ^ k ≤ maxFinitePattern ∧ scaledPattern (acc + 2 ^ k) * den ≤ num * 2 ^ 1074 then
      greatestPattern num den k (acc + 2 ^ k)
    else greatestPattern num den k acc

/-- The non-negative finite pattern nearest to `num / den`; half way between two, either (log entry 16). -/
def nearestPattern (num den : Nat) : Nat :=
  let b := greatestPattern num den 63 0
  let twice := 2 * (num * 2 ^ 1074)
  let between := scaledPattern b * den + scaledPattern (b + 1) * den
  if b = maxFinitePattern ∨ twice < between then b
  else if between < twice then b + 1
  else if Config.literalTieUp num den then b + 1
  else b

/-- `bits(<value>)` (30_encoding.md rule R44). Log entry 16 names what the rule leaves open: a literal beyond the largest finite
value denotes that value, and a literal keeps its sign when the nearest value is zero, so that a non-zero negative literal such as
−1e−400 denotes −0 (DESIGN CHOICE: the rule names the value, not which zero pattern). -/
def literalBits : Literal → Binary64
  | .bits pattern => pattern
  | .number negative num den => BitVec.ofNat 64 (nearestPattern num den + if negative then 2 ^ 63 else 0)

/-- The request word of an assembler line; none for a line the syntax does not have (30_encoding.md rule R44). -/
def assemble (a : Asm) : Option RequestWord :=
  if a.wellFormed then
    match a with
    | .enc16 v => some (requestWord 0x10 (literalBits v))
    | .enc32 v => some (requestWord 0x20 (literalBits v))
    | .enc48 v => some (requestWord 0x30 (literalBits v))
    | .enc w v => some (requestWord (BitVec.ofNat 8 w) (literalBits v))
  else none

/-- A hexadecimal digit. -/
def hexDigit (n : Nat) : Char := if n < 10 then Char.ofNat (48 + n) else Char.ofNat (55 + n)

/-- A byte as two hexadecimal digits. -/
def byteText (b : Byte) : String := String.ofList [hexDigit (b.toNat / 16), hexDigit (b.toNat % 16)]

/-- A response as 30_encoding.md rule R44 writes it. -/
def responseText (r : Response) : String :=
  match r.status with
  | .ok => "-> OK [" ++ String.intercalate " " ((responseBytes r).map byteText) ++ "]"
  | .invalidWidth => "-> INVALID_WIDTH"
  | .nonfiniteInput => "-> NONFINITE_INPUT"

end Sys2Proof.Machine
end

