-- ==== Sys2Proof/Machine/Instances.lean ====
section
/-! DEFINITION. Several instances of the block (20_memory.md rule R32; 60_exceptions.md rule R81), each with parameters and a
state of its own and no signal between them. Their inputs are independent as far as their scripts reach; beyond, the model's free
values are one function of the cycle number (log entries 3, 7 and 15). -/

namespace Sys2Proof.Machine

/-- One instance of the block. -/
structure Unit1750 where
  timing : Timing
  state : State
deriving DecidableEq, Repr

/-- A rising edge of the clock of instance `k`. -/
def edgeOfInstance (k : Nat) (units : List Unit1750) : List Unit1750 :=
  units.modify k fun u => { u with state := cycleEdge u.timing u.state }

end Sys2Proof.Machine
end

