-- ==== Sys2Proof/Machine/Program.lean ====
section
/-! DEFINITION. A program is a finite sequence of requests presented in order (10_state.md rule R17). The requester holds each
request on the ports until it is accepted (70_reset_and_hazards.md rule R86), while the consumer's `out_ready` follows a list
of its own. It is one requester (DESIGN CHOICE, log entry 21): the rule also lets one wait between requests or withdraw one. -/

namespace Sys2Proof.Machine

/-- The input ports while the requester offers the first of `reqs`, or nothing when none is left (log entry 21). -/
def offerFirst (outReady : Bool) (reqs : List Request) : Inputs :=
  match reqs with
  | [] => { rst := false, inValid := false, inValue := 0, inWidth := 0, outReady := outReady }
  | r :: _ => { rst := false, inValid := true, inValue := r.value, inWidth := r.width, outReady := outReady }

/-- `s` in a cycle in which the requester and the consumer drive the ports. -/
def State.driven (s : State) (outReady : Bool) (reqs : List Request) : State :=
  { s with script := [offerFirst outReady reqs] }

/-- One cycle for each `out_ready` of `consumer`: the requests not yet accepted, and the state reached. The next request is offered
in the cycle after an acceptance (log entry 21). -/
def runProgram (c : Timing) : List Bool → List Request → State → List Request × State
  | [], reqs, s => (reqs, s)
  | b :: consumer, reqs, s =>
    runProgram c consumer (if (s.driven b reqs).inReady c then reqs.tail else reqs) (cycleEdge c (s.driven b reqs))

end Sys2Proof.Machine
end

