-- ==== Sys2Proof/Machine/SplitWords.lean ====
section
/-! DEFINITION. The second datapath that 40_encode.md rule R62 allows for the 48-bit format: the mantissa in two words, the
top 24 bits and the bottom 16, with explicit carries across the boundary. `exec` uses the single-integer form. -/

namespace Sys2Proof.Machine

/-- A 40-bit mantissa as two words (40_encode.md rule R62). -/
structure SplitMantissa where
  /-- The top 24 bits. -/
  high : Nat
  /-- The bottom 16 bits. -/
  low : Nat
deriving DecidableEq, Repr

/-- The two words of a 40-bit integer. -/
def splitWords (m : Nat) : SplitMantissa := { high := slice m 39 16, low := slice m 15 0 }

/-- Add a bit to the low word and carry into the high word. -/
def splitAddBit (w : SplitMantissa) (b : Nat) : SplitMantissa :=
  { high := (w.high + (w.low + b) / 2 ^ 16) % 2 ^ 24, low := (w.low + b) % 2 ^ 16 }

/-- Shift right by one: the high word's bit 0 enters the low word at bit 15. -/
def splitShiftRight (w : SplitMantissa) : SplitMantissa :=
  { high := w.high >>> 1, low := (w.low >>> 1) + (w.high % 2) <<< 15 }

/-- Shift left by one: the low word's bit 15 enters the high word at bit 0. -/
def splitShiftLeft (w : SplitMantissa) : SplitMantissa :=
  { high := (w.high <<< 1 + w.low >>> 15) % 2 ^ 24, low := (w.low <<< 1) % 2 ^ 16 }

/-- Negate: bitwise NOT of both words, then add one with carry. -/
def splitNegate (w : SplitMantissa) : SplitMantissa :=
  splitAddBit { high := complement 24 w.high, low := complement 16 w.low } 1

/-- Steps 2 to 4 on two words. -/
def splitRound (mag : Magnitude) : SplitMantissa :=
  splitAddBit (splitShiftRight (splitWords (rawMantissa 40 mag))) ((splitWords (rawMantissa 40 mag)).low % 2)

/-- Step 5 on two words: the carry out of 39 bits is bit 23 of the high word. -/
def splitRenormalize (w : SplitMantissa) (e : Int) : SplitMantissa × Int :=
  if w.high.testBit 23 then (splitShiftRight w, e + 1) else (w, e)

/-- Step 7 on two words. -/
def splitNormalizeLoop : Nat → SplitMantissa × Int → SplitMantissa × Int
  | 0, a => a
  | fuel + 1, a =>
    if a.1.high.testBit 23 && a.1.high.testBit 22 then splitNormalizeLoop fuel (splitShiftLeft a.1, a.2 - 1) else a

/-- Steps 2 to 7 on two words. -/
def splitResult (negative : Bool) (mag : Magnitude) : SplitMantissa × Int :=
  let a := splitRenormalize (splitRound mag) (naturalExponent mag)
  splitNormalizeLoop 40 (if negative then splitNegate a.1 else a.1, a.2)

/-- The bytes of 30_encoding.md rule R39 from two words. -/
def splitPack (w : SplitMantissa) (xf : Nat) : List Byte :=
  [byteAt w.high 23, byteAt w.high 15, byteAt w.high 7, byteAt xf 7, byteAt w.low 15, byteAt w.low 7]

/-- `Encode1750(VALUE, 48)` on the two-word datapath (40_encode.md rule R62). -/
def splitEncode48 (value : Binary64) : Response :=
  match magnitude value with
  | none => raiseError .nonfiniteInput
  | some mag =>
    let a := splitResult (signBit value) mag
    { status := .ok, nbytes := 6, data := placeBytes (splitPack a.1 (tc 8 (clampExponent (params .w48) a.2))) }

end Sys2Proof.Machine
end

