-- ==== Sys2Proof/Machine/Value.lean ====
section
/-! DEFINITION. What patterns and result words mean, as rational numbers: the operand (30_encoding.md rule R34), its frexp
fraction (40_encode.md rule R50) and the result word (30_encoding.md rule R41). The block has no decode operation
(00_scope.md rule R5): these functions are the terms of the laws, no instruction calls them. -/

namespace Sys2Proof.Machine

/-- |x| by class (30_encoding.md rule R34). -/
def magnitudeValue : Magnitude → ℚ
  | .zero => 0
  | .subnormal fr => (fr : ℚ) * 2 ^ (-1074 : ℤ)
  | .normal be fr => ((2 ^ 52 + fr : ℕ) : ℚ) * 2 ^ ((be : ℤ) - 1075)

/-- The number x a pattern denotes; none for an infinity or a NaN (30_encoding.md rule R34). -/
def realValue (v : Binary64) : Option ℚ :=
  (magnitude v).map fun mag => (if signBit v then -1 else 1) * magnitudeValue mag

/-- The frexp fraction f by class (40_encode.md rule R50). -/
def fraction : Magnitude → ℚ
  | .zero => 0
  | .subnormal fr => (fr : ℚ) / 2 ^ bitlen fr
  | .normal _ fr => ((2 ^ 52 + fr : ℕ) : ℚ) / 2 ^ 53

/-- The mantissa field `m` of a result on `out_data` (30_encoding.md rules R37 to R39; 20_memory.md rule R28). -/
def mantissaField (f : Format) (d : Data) : Nat :=
  match f with
  | .w16 => slice d.toNat 47 38
  | .w32 => slice d.toNat 47 24
  | .w48 => slice d.toNat 47 24 <<< 16 + slice d.toNat 15 0

/-- The exponent field `xf` of a result on `out_data` (30_encoding.md rules R37 to R39; 20_memory.md rule R28). -/
def exponentField (f : Format) (d : Data) : Nat :=
  match f with
  | .w16 => slice d.toNat 37 32
  | .w32 => slice d.toNat 23 16
  | .w48 => slice d.toNat 23 16

/-- `Value_W(m, xf)` with p = N − 1 (30_encoding.md rule R41; 90_conflicts.md C1). -/
def wordValue (f : Format) (m xf : Nat) : ℚ :=
  (sext (params f).mantissaBits m : ℚ) *
    2 ^ (sext (params f).exponentBits xf - (((params f).mantissaBits : ℤ) - 1))

/-- The value of the result word on `out_data`. -/
def dataValue (f : Format) (d : Data) : ℚ := wordValue f (mantissaField f d) (exponentField f d)

end Sys2Proof.Machine
end

