-- ==== Sys2Proof/Safety.lean ====
section
/-! DEFINITION. What the block may produce, what a good state is, and the terms in which runs are spoken of: the mathematical
encoding of a number (40_encode.md rules R49 to R59 in exact arithmetic), legal responses (10_state.md rule R20;
30_encoding.md rule R42), the invariant of the queue (10_state.md rule R24), and the accepted and transferred items of a run
(70_reset_and_hazards.md rules R86 and R87). -/

namespace Sys2Proof.Machine

/-! ### The exact encoding of a rational number -/

/-- `(f, e)` is the frexp decomposition of x (40_encode.md rule R49). -/
def IsFrexp (x f : ℚ) (e : ℤ) : Prop :=
  (x = 0 ∧ f = 0 ∧ e = 0) ∨ (x ≠ 0 ∧ |x| = f * 2 ^ e ∧ 1 / 2 ≤ f ∧ f < 1)

/-- The fraction rounded to N − 1 bits, ties away from zero (40_encode.md rule R54). -/
def idealRound (n : Nat) (f : ℚ) : ℤ := ⌊f * 2 ^ (n - 1) + 1 / 2⌋

/-- The normalized magnitude and its exponent (40_encode.md rule R55). -/
def idealMagnitude (n : Nat) (f : ℚ) (e : ℤ) : ℤ × ℤ :=
  if idealRound n f = 2 ^ (n - 1) then (2 ^ (n - 2), e + 1) else (idealRound n f, e)

/-- The signed mantissa and its unclamped exponent (40_encode.md rules R56 and R58). -/
def idealResult (n : Nat) (negative : Bool) (f : ℚ) (e : ℤ) : ℤ × ℤ :=
  if negative then
    if (idealMagnitude n f e).1 = 2 ^ (n - 2) then (-2 ^ (n - 1), (idealMagnitude n f e).2 - 1)
    else (-(idealMagnitude n f e).1, (idealMagnitude n f e).2)
  else idealMagnitude n f e

/-- No bit of `d` is set below the result bytes of the format (20_memory.md rule R28). -/
def ZeroBelow (f : Format) (d : Data) : Prop := d.toNat % 2 ^ (48 - 8 * (params f).nbytes) = 0

/-- `r` is the OK response that carries the encoding of the number x in the format (40_encode.md rules R49 to R60, in exact
arithmetic: no bit operation and no loop). -/
def IsEncodingOf (fmt : Format) (negative : Bool) (x : ℚ) (r : Response) : Prop :=
  ∃ f e, IsFrexp x f e ∧
    r.status = .ok ∧
    r.nbytes.toNat = (params fmt).nbytes ∧
    ZeroBelow fmt r.data ∧
    sext (params fmt).mantissaBits (mantissaField fmt r.data) =
      (idealResult (params fmt).mantissaBits negative f e).1 ∧
    sext (params fmt).exponentBits (exponentField fmt r.data) =
      min (params fmt).emax (max (params fmt).emin (idealResult (params fmt).mantissaBits negative f e).2)

/-! ### Legal responses -/

/-- The two most-significant mantissa bits differ (30_encoding.md rule R42). -/
def Normalized (f : Format) (m : Nat) : Prop :=
  m.testBit ((params f).mantissaBits - 1) ≠ m.testBit ((params f).mantissaBits - 2)

/-- A response the block may produce (10_state.md rules R20 and R21; 30_encoding.md rules R42 and R43). -/
def Response.Legal (r : Response) : Prop :=
  match r.status with
  | .ok =>
    ∃ f, r.nbytes.toNat = (params f).nbytes ∧ ZeroBelow f r.data ∧
      (Normalized f (mantissaField f r.data) ∨ r.data = 0)
  | .invalidWidth => r.nbytes = 0 ∧ r.data = 0
  | .nonfiniteInput => r.nbytes = 0 ∧ r.data = 0

/-! ### Good states -/

/-- The invariant of the machine: `Q` holds at most DEPTH entries, older entries first and no two of one age, each counted
from its accepting edge, and every response in it or taken from it is legal (10_state.md rules R20 and R24; 70_reset_and_hazards.md
rule R86). -/
structure State.Inv (s : State) : Prop where
  bounded : s.queue.length ≤ Config.depth
  ordered : s.queue.Pairwise fun older newer => newer.age < older.age
  counted : ∀ e ∈ s.queue, 1 ≤ e.age
  queued : ∀ e ∈ s.queue, e.rsp.Legal
  taken : ∀ r ∈ s.delivered, r.Legal

/-! ### One edge -/

/-- A response is transferred at the edge that ends this cycle (70_reset_and_hazards.md rule R87). -/
def transfers (s : State) : Bool := s.outValid Config.timing && s.inputs.outReady

/-- The entries that stay in `Q` at the edge (70_reset_and_hazards.md rule R85, step 1). -/
def remaining (s : State) : List Entry := if transfers s then s.queue.tail else s.queue

/-- The response transferred at the edge, if any (70_reset_and_hazards.md rule R87). -/
def taken (s : State) : List Response := if transfers s then (s.queue.take 1).map Entry.rsp else []

/-- `t` follows `s` by an edge outside reset at which `Q` gains exactly `added` (70_reset_and_hazards.md rule R85). -/
def EdgeAdds (s t : State) (added : List Response) : Prop :=
  t.queue = (remaining s).map Entry.older ++ added.map (fun r => { rsp := r, age := 1 }) ∧
    t.delivered = s.delivered ++ taken s ∧ t.script = s.script.tail ∧ t.cycle = s.cycle + 1

/-- Operation `i`, offered in any cycle with `in_ready = 1`, runs to a next state in which `Q` has gained the encoding of its
operand in the format, or the NONFINITE_INPUT response (40_encode.md rules R46 and R63 to R65). -/
def CompletesIn (fmt : Format) (i : Instr) (v : Binary64) : Prop :=
  ∀ s : State, s.inReady Config.timing = true →
    ∃ t r, exec i s = .next t ∧ EdgeAdds s t [r] ∧
      (biasedExponent v = 2047 → r = { status := .nonfiniteInput, nbytes := 0, data := 0 }) ∧
      (biasedExponent v ≠ 2047 → ∃ x, realValue v = some x ∧ IsEncodingOf fmt (signBit v) x r)

/-! ### Runs -/

/-- The next state of a step that has one. -/
def nextState (s : State) : State :=
  match step s with
  | .next t => t
  | .fault _ => s
  | .refused _ => s

/-- The state `n` edges later. -/
def stateAfter : Nat → State → State
  | 0, s => s
  | n + 1, s => stateAfter n (nextState s)

/-- The request accepted at the edge that ends this cycle, if any (70_reset_and_hazards.md rule R86). -/
def acceptedNow (s : State) : List Request :=
  if s.inputs.inValid && s.inReady Config.timing then
    [{ width := s.inputs.inWidth, value := s.inputs.inValue }]
  else []

/-- The requests accepted at the next `n` edges, in order. -/
def acceptedIn : Nat → State → List Request
  | 0, _ => []
  | n + 1, s => acceptedNow s ++ acceptedIn n (nextState s)

/-- The number of the next `n` edges at which a response is transferred. -/
def transferCount : Nat → State → Nat
  | 0, _ => 0
  | n + 1, s => (if transfers s then 1 else 0) + transferCount n (nextState s)

/-- The response of a request (40_encode.md rule R46). -/
def answer (r : Request) : Response := encode1750 r.value r.width

/-- The state `n` edges later on an instance with the parameters `c` (00_scope.md rule R11). -/
def edgesAfter (c : Timing) : Nat → State → State
  | 0, s => s
  | n + 1, s => edgesAfter c n (cycleEdge c s)

end Sys2Proof.Machine
end

