-- ==== Sys2Proof/Certificates/Slice0/Obligations.lean ====
section
/-! DEFINITION. The statements for the provers. Each docstring names the rule of spec/ it formalises. -/

open Sys2Proof Sys2Proof.Machine

/-! ### Request words -/

/-- 30_encoding.md rules R35, R36 and R45: a request word decodes to an operation exactly when it is that operation's word, and
to none, by name, exactly when its width is not 16, 32 or 48. -/
def Obligations.DecodeExactlyInvertsEncode : Prop :=
  ∀ w : RequestWord,
    (∀ i, decode w = .ok i ↔ w = encode i) ∧
    ∀ c, decode w = .error (.invalidWidth c) ↔
      c = w.extractLsb' 64 8 ∧ c.toNat ≠ 16 ∧ c.toNat ≠ 32 ∧ c.toNat ≠ 48

/-- Words of 95_test_vectors.md sections 2.6 and 3, written out, decode to the operation they stand for. -/
def Obligations.VectorWordsDecode : Prop :=
  decode 0x10BFE0000000000000 = .ok (.enc16 0xBFE0000000000000) ∧
  decode 0x204024000000000000 = .ok (.enc32 0x4024000000000000) ∧
  decode 0x30BFF0000000000000 = .ok (.enc48 0xBFF0000000000000) ∧
  decode 0x147FF8000000000000 = .error (.invalidWidth 20)

/-- The offered word of an operation is fetched and run (30_encoding.md rule R35; log entry 8). -/
def Obligations.FetchedWordRuns : Prop :=
  ∀ (i : Instr) (s : State),
    decodeTableWord 72 (encode i).toNat = some i ∧
    step (s.withFetchWord 72 (encode i).toNat) = exec i (s.withFetchWord 72 (encode i).toNat) ∧
    (s.queue = [] → (s.withFetchWord 72 (encode i).toNat).inReady Config.timing = true)

/-- 30_encoding.md rule R44: the pseudo-forms expand to the general form, whose word is the width and the operand's bits. -/
def Obligations.PseudoFormsExpand : Prop :=
  ∀ v : Literal,
    assemble (.enc16 v) = assemble (.enc 16 v) ∧ assemble (.enc32 v) = assemble (.enc 32 v) ∧
    assemble (.enc48 v) = assemble (.enc 48 v) ∧
    ∀ w, w < 256 → v.wellFormed = true →
      assemble (.enc w v) = some (requestWord (BitVec.ofNat 8 w) (literalBits v))

/-- 30_encoding.md rule R44: a numeric literal denotes a binary64 value nearest to it. Two clauses are the model's reading, not
the rule's (log entry 16): a literal beyond the largest finite value denotes that value, the nearest finite one, and a literal
keeps its sign where the nearest value is zero. -/
def Obligations.LiteralIsNearest : Prop :=
  ∀ (negative : Bool) (num den : Nat), den ≠ 0 →
    ∃ x, realValue (literalBits (.number negative num den)) = some x ∧
      signBit (literalBits (.number negative num den)) = negative ∧
      ∀ v y, realValue v = some y →
        |x - (if negative then -1 else 1) * ((num : ℚ) / den)| ≤ |y - (if negative then -1 else 1) * ((num : ℚ) / den)|

/-! ### The integer primitives and the operand -/

/-- 00_scope.md rule R14: `sext_N(tc_N(i)) = i` on the N-bit two's-complement range, and `tc_N(sext_N(v)) = v` on N-bit fields.
-/
def Obligations.SignExtensionInvertsTwosComplement : Prop :=
  ∀ n, 1 ≤ n →
    (∀ i : Int, -2 ^ (n - 1) ≤ i → i < 2 ^ (n - 1) → sext n (tc n i) = i) ∧
    ∀ v, v < 2 ^ n → tc n (sext n v) = v ∧ -2 ^ (n - 1) ≤ sext n v ∧ sext n v < 2 ^ (n - 1)

/-- 30_encoding.md rule R34: the class of every pattern, and the number the patterns of the finite classes denote. -/
def Obligations.OperandClassesDenote : Prop :=
  ∀ v : Binary64,
    (classify v = .zero ↔ biasedExponent v = 0 ∧ trailingSignificand v = 0) ∧
    (classify v = .subnormal ↔ biasedExponent v = 0 ∧ trailingSignificand v ≠ 0) ∧
    (classify v = .normal ↔ 1 ≤ biasedExponent v ∧ biasedExponent v ≤ 2046) ∧
    (classify v = .infinity ↔ biasedExponent v = 2047 ∧ trailingSignificand v = 0) ∧
    (classify v = .nan ↔ biasedExponent v = 2047 ∧ trailingSignificand v ≠ 0) ∧
    (realValue v = none ↔ biasedExponent v = 2047) ∧
    (biasedExponent v = 0 → realValue v =
      some ((if v.getLsbD 63 then -1 else 1) * ((trailingSignificand v : ℚ) * 2 ^ (-1074 : ℤ)))) ∧
    (1 ≤ biasedExponent v → biasedExponent v ≤ 2046 → realValue v =
      some ((if v.getLsbD 63 then -1 else 1) *
        ((2 ^ 52 + (trailingSignificand v : ℚ)) * 2 ^ ((biasedExponent v : ℤ) - 1075))))

/-- 40_encode.md rules R49 and R50: the table's fraction and exponent are the one frexp decomposition of |x|, in the stated
ranges. -/
def Obligations.FrexpDecomposition : Prop :=
  ∀ v mag x, magnitude v = some mag → realValue v = some x →
    IsFrexp x (fraction mag) (naturalExponent mag) ∧
    (∀ g k, IsFrexp x g k → g = fraction mag ∧ k = naturalExponent mag) ∧
    (classify v = .normal → -1021 ≤ naturalExponent mag ∧ naturalExponent mag ≤ 1024) ∧
    (classify v = .subnormal → -1073 ≤ naturalExponent mag ∧ naturalExponent mag ≤ -1022)

/-! ### The steps of the conversion -/

/-- 40_encode.md rule R51: `raw = floor(f · 2^N)`, exactly N bits for a non-zero operand. -/
def Obligations.ScaledMantissaIsFloor : Prop :=
  ∀ fmt v mag, magnitude v = some mag →
    (rawMantissa (params fmt).mantissaBits mag : ℤ) = ⌊fraction mag * 2 ^ (params fmt).mantissaBits⌋ ∧
    (mag = .zero → rawMantissa (params fmt).mantissaBits mag = 0) ∧
    (mag ≠ .zero → 2 ^ ((params fmt).mantissaBits - 1) ≤ rawMantissa (params fmt).mantissaBits mag ∧
      rawMantissa (params fmt).mantissaBits mag < 2 ^ (params fmt).mantissaBits)

/-- 40_encode.md rules R53 and R54: adding the rounding bit is rounding to nearest, ties away from zero, for either sign. -/
def Obligations.RoundingIsTiesAway : Prop :=
  (∀ fmt v mag, magnitude v = some mag →
    let n := (params fmt).mantissaBits
    let raw := rawMantissa n mag
    roundHalfUp raw = (raw >>> 1) + (raw.testBit 0).toNat ∧
    roundHalfUp raw = (raw + (raw.testBit 0).toNat) >>> 1 ∧
    (roundHalfUp raw : ℤ) = ⌊fraction mag * 2 ^ (n - 1) + 1 / 2⌋ ∧
    (mag = .zero → roundHalfUp raw = 0) ∧
    (mag ≠ .zero → 2 ^ (n - 2) ≤ roundHalfUp raw ∧ roundHalfUp raw ≤ 2 ^ (n - 1))) ∧
  sext 10 (mantissaField .w16 (encode1750 0x3FE0080000000000 16).data) = 257 ∧
  sext 10 (mantissaField .w16 (encode1750 0xBFE0080000000000 16).data) = -257

/-- 40_encode.md rule R55: renormalization happens exactly on the rounding carry, and leaves a magnitude of N − 1 bits. -/
def Obligations.RenormalizationOnCarry : Prop :=
  ∀ fmt v mag, magnitude v = some mag →
    let n := (params fmt).mantissaBits
    let m0 := roundHalfUp (rawMantissa n mag)
    let a := roundedMagnitude (params fmt) mag
    (m0 = 2 ^ (n - 1) → a.mantissa = m0 >>> 1 ∧ a.mantissa = 2 ^ (n - 2) ∧ a.exponent = naturalExponent mag + 1) ∧
    (m0 ≠ 2 ^ (n - 1) → a.mantissa = m0 ∧ a.exponent = naturalExponent mag) ∧
    (a.mantissa = 0 ∨ 2 ^ (n - 2) ≤ a.mantissa ∧ a.mantissa < 2 ^ (n - 1)) ∧
    a.mantissa.testBit (n - 1) = false ∧ (a.mantissa ≠ 0 → a.mantissa.testBit (n - 2) = true) ∧
    (m0 = 2 ^ (n - 1) ↔ rawMantissa n mag = 2 ^ n - 1) ∧
    (m0 = 2 ^ (n - 1) ↔ 1 - 1 / 2 ^ n ≤ fraction mag)

/-- 40_encode.md rule R56: the sign step negates over the full mantissa width. -/
def Obligations.NegationIsTwosComplement : Prop :=
  ∀ fmt m1, m1 < 2 ^ ((params fmt).mantissaBits - 1) →
    let n := (params fmt).mantissaBits
    applySign n true m1 = (2 ^ n - m1) % 2 ^ n ∧ applySign n true m1 < 2 ^ n ∧
    sext n (applySign n true m1) = -(m1 : ℤ) ∧ applySign n false m1 = m1 ∧
    ∀ negative, applySign n negative 0 = 0

/-- 40_encode.md rules R57 and R58: however many iterations are allowed, the loop runs once exactly when the sign is 1 and the
rounded magnitude is a power of two, otherwise not at all, and the value is unchanged. -/
def Obligations.NormalizationRunsAtMostOnce : Prop :=
  ∀ fmt v mag negative fuel, magnitude v = some mag → 1 ≤ fuel →
    let n := (params fmt).mantissaBits
    let a := roundedMagnitude (params fmt) mag
    let b := normalizeLoop n fuel { mantissa := applySign n negative a.mantissa, exponent := a.exponent }
    b = normalizedResult (params fmt) negative mag ∧
    (negative = true → a.mantissa = 2 ^ (n - 2) →
      applySign n negative a.mantissa = 2 ^ (n - 1) + 2 ^ (n - 2) ∧
      b.mantissa = 2 ^ (n - 1) ∧ b.exponent = a.exponent - 1) ∧
    (¬(negative = true ∧ a.mantissa = 2 ^ (n - 2)) →
      b.mantissa = applySign n negative a.mantissa ∧ b.exponent = a.exponent) ∧
    (sext n b.mantissa : ℚ) * 2 ^ b.exponent = (sext n (applySign n negative a.mantissa) : ℚ) * 2 ^ a.exponent

/-- 40_encode.md rule R59: the exponent, as normalization left it, saturates on both sides; the mantissa is not changed. -/
def Obligations.ExponentSaturates : Prop :=
  ∀ fmt v mag, magnitude v = some mag →
    let p := params fmt
    let b := normalizedResult p (signBit v) mag
    let r := encode1750 v (widthCode fmt)
    r.status = .ok ∧ mantissaField fmt r.data = b.mantissa ∧
    (b.exponent < p.emin → sext p.exponentBits (exponentField fmt r.data) = p.emin) ∧
    (p.emin ≤ b.exponent → b.exponent ≤ p.emax → sext p.exponentBits (exponentField fmt r.data) = b.exponent) ∧
    (p.emax < b.exponent → sext p.exponentBits (exponentField fmt r.data) = p.emax)

/-- 40_encode.md rule R61: a zero operand of either sign runs through every step to the zero word. -/
def Obligations.ZeroGivesZeroWord : Prop :=
  ∀ fmt, ∀ v ∈ ([0x0000000000000000, 0x8000000000000000] : List Binary64),
    let p := params fmt
    magnitude v = some .zero ∧ rawMantissa p.mantissaBits .zero = 0 ∧ roundHalfUp 0 = 0 ∧
    roundedMagnitude p .zero = { mantissa := 0, exponent := 0 } ∧
    (∀ negative, normalizedResult p negative .zero = { mantissa := 0, exponent := 0 }) ∧
    clampExponent p 0 = 0 ∧ tc p.exponentBits 0 = 0 ∧
    (encode1750 v (widthCode fmt)).status = .ok ∧
    responseBytes (encode1750 v (widthCode fmt)) = List.replicate p.nbytes 0

/-- 40_encode.md rule R70: the stated widths hold every intermediate value. -/
def Obligations.IntermediateRanges : Prop :=
  ∀ fmt v mag negative, magnitude v = some mag →
    let p := params fmt
    let n := p.mantissaBits
    let a := roundedMagnitude p mag
    let b := normalizedResult p negative mag
    rawMantissa n mag < 2 ^ n ∧ roundHalfUp (rawMantissa n mag) ≤ 2 ^ (n - 1) ∧ a.mantissa < 2 ^ (n - 1) ∧
    b.mantissa < 2 ^ n ∧ -1073 ≤ naturalExponent mag ∧ naturalExponent mag ≤ 1024 ∧
    -1073 ≤ a.exponent ∧ a.exponent ≤ 1025 ∧ -1074 ≤ b.exponent ∧ b.exponent ≤ 1025 ∧
    p.emin ≤ clampExponent p b.exponent ∧ clampExponent p b.exponent ≤ p.emax

/-! ### The result words -/

/-- 30_encoding.md rules R37, R38 and R39: the bytes of a result, and its fields read back from the lanes. -/
def Obligations.ResultLayouts : Prop :=
  (∀ m xf, m < 2 ^ 10 → xf < 2 ^ 6 →
    (responseBytes (okResponse .w16 m xf)).map BitVec.toNat = [m / 2 ^ 2, m % 2 ^ 2 * 2 ^ 6 + xf] ∧
    (okResponse .w16 m xf).data.toNat / 2 ^ 32 = m * 2 ^ 6 + xf) ∧
  (∀ m xf, m < 2 ^ 24 → xf < 2 ^ 8 →
    (responseBytes (okResponse .w32 m xf)).map BitVec.toNat =
      [m / 2 ^ 16, m / 2 ^ 8 % 2 ^ 8, m % 2 ^ 8, xf]) ∧
  (∀ m xf, m < 2 ^ 40 → xf < 2 ^ 8 →
    (responseBytes (okResponse .w48 m xf)).map BitVec.toNat =
      [m / 2 ^ 32, m / 2 ^ 24 % 2 ^ 8, m / 2 ^ 16 % 2 ^ 8, xf, m / 2 ^ 8 % 2 ^ 8, m % 2 ^ 8]) ∧
  ∀ fmt m xf, m < 2 ^ (params fmt).mantissaBits → xf < 2 ^ (params fmt).exponentBits →
    mantissaField fmt (okResponse fmt m xf).data = m ∧ exponentField fmt (okResponse fmt m xf).data = xf

/-- 20_memory.md rule R28: byte i of a result sits at `out_data[47−8i : 40−8i]`, the lanes below are 0, and the lanes used are
the result read as one big-endian integer. -/
def Obligations.ByteLanesLeftJustified : Prop :=
  ∀ fmt m xf,
    (packBytes fmt m xf).length = (params fmt).nbytes ∧
    (∀ i (h : i < (packBytes fmt m xf).length),
      (okResponse fmt m xf).data.extractLsb' (40 - 8 * i) 8 = (packBytes fmt m xf)[i]) ∧
    ZeroBelow fmt (okResponse fmt m xf).data ∧
    (okResponse fmt m xf).data.toNat / 2 ^ (48 - 8 * (params fmt).nbytes) =
      (packBytes fmt m xf).foldl (fun acc b => acc * 256 + b.toNat) 0

/-! ### The laws of the operations -/

/-- 40_encode.md rules R49 to R60: the step-by-step conversion of every finite operand is the exact-arithmetic encoding of the
number it denotes. -/
def Obligations.ConversionIsExactEncoding : Prop :=
  ∀ fmt v x, realValue v = some x → IsEncodingOf fmt (signBit v) x (encode1750 v (widthCode fmt))

/-- 40_encode.md rule R66: every OK response is normalized or the zero word, with the top bits the sign asks for. -/
def Obligations.SuccessfulResultsNormalized : Prop :=
  ∀ fmt v, (encode1750 v (widthCode fmt)).status = .ok →
    let n := (params fmt).mantissaBits
    let m := mantissaField fmt (encode1750 v (widthCode fmt)).data
    (Normalized fmt m ∨ (encode1750 v (widthCode fmt)).data = 0) ∧
    (realValue v ≠ some 0 → m.testBit (n - 1) = signBit v ∧ m.testBit (n - 2) = !signBit v)

/-- 40_encode.md rule R67: in range, the result is x rounded to the nearest multiple of 2^(e − p), ties away from zero, with
error at most 2^(e − p − 1); out of range, that value times 2^(E − e1'). -/
def Obligations.AccuracyLaw : Prop :=
  (∀ fmt v mag x, magnitude v = some mag → realValue v = some x →
    let p := params fmt
    let n := p.mantissaBits
    let e := naturalExponent mag
    let e1 := (normalizedResult p (signBit v) mag).exponent
    let ulp : ℚ := 2 ^ (e - n + 1)
    let rounded : ℚ := (if signBit v then -1 else 1) * ⌊fraction mag * 2 ^ (n - 1) + 1 / 2⌋ * ulp
    let val := dataValue fmt (encode1750 v (widthCode fmt)).data
    (p.emin ≤ e1 → e1 ≤ p.emax →
      val = rounded ∧ |val - x| ≤ ulp / 2 ∧
      ∀ j : ℤ, |x - val| ≤ |x - j * ulp| ∧ (|x - j * ulp| = |x - val| → |j * ulp| ≤ |val|)) ∧
    (¬(p.emin ≤ e1 ∧ e1 ≤ p.emax) → val = rounded * 2 ^ (clampExponent p e1 - e1))) ∧
  dataValue .w32 (encode1750 0x4C70000000000000 32).data = 1 / 2 * 2 ^ 127

/-- 40_encode.md rule R68: every normalized word and the zero word is the encoding of the binary64 values equal to it, and there
is one. -/
def Obligations.RoundTripLaw : Prop :=
  ∀ fmt m xf, m < 2 ^ (params fmt).mantissaBits → xf < 2 ^ (params fmt).exponentBits →
    (Normalized fmt m ∨ m = 0 ∧ xf = 0) →
    (∃ v, realValue v = some (wordValue fmt m xf)) ∧
    ∀ v, realValue v = some (wordValue fmt m xf) → encode1750 v (widthCode fmt) = okResponse fmt m xf

/-- 40_encode.md rule R69: how the encodings of x and −x compare. -/
def Obligations.SignLaw : Prop :=
  (∀ fmt v mag x, signBit v = false → magnitude v = some mag → mag ≠ .zero → realValue v = some x →
    let p := params fmt
    let n := p.mantissaBits
    let a := roundedMagnitude p mag
    let w : Binary64 := v ||| 0x8000000000000000
    let dp := (encode1750 v (widthCode fmt)).data
    let dn := (encode1750 w (widthCode fmt)).data
    realValue w = some (-x) ∧
    (a.mantissa ≠ 2 ^ (n - 2) → sext n (mantissaField fmt dn) = -sext n (mantissaField fmt dp) ∧
      exponentField fmt dn = exponentField fmt dp) ∧
    (a.mantissa = 2 ^ (n - 2) →
      mantissaField fmt dp = 2 ^ (n - 2) ∧ sext p.exponentBits (exponentField fmt dp) = clampExponent p a.exponent ∧
      mantissaField fmt dn = 2 ^ (n - 1) ∧ sext p.exponentBits (exponentField fmt dn) = clampExponent p (a.exponent - 1)) ∧
    (dataValue fmt dp = -dataValue fmt dn ↔
      a.mantissa ≠ 2 ^ (n - 2) ∨ p.emin ≤ a.exponent - 1 ∧ a.exponent ≤ p.emax)) ∧
  dataValue .w32 (encode1750 0x47E0000000000000 32).data = 2 ^ 126 ∧
  dataValue .w32 (encode1750 0xC7E0000000000000 32).data = -2 ^ 127 ∧
  dataValue .w32 (encode1750 0x37E0000000000000 32).data = 2 ^ (-129 : ℤ) ∧
  dataValue .w32 (encode1750 0xB7E0000000000000 32).data = -2 ^ (-128 : ℤ)

/-- 60_exceptions.md rules R73, R74 and R75: which status a request gets, decided by its width first and then by the class of
its value, and what an error response carries. -/
def Obligations.StatusByWidthThenClass : Prop :=
  ∀ v w,
    let valid := w.toNat = 16 ∨ w.toNat = 32 ∨ w.toNat = 48
    let r := encode1750 v w
    (r.status = .invalidWidth ↔ ¬valid) ∧
    (r.status = .nonfiniteInput ↔ valid ∧ (v.extractLsb' 52 11).toNat = 2047) ∧
    (r.status = .ok ↔ valid ∧ (v.extractLsb' 52 11).toNat ≠ 2047) ∧
    (r.status ≠ .ok → r.nbytes = 0 ∧ r.data = 0)

/-- 40_encode.md rule R62: the two-word datapath gives the results of the single-integer form bit for bit. -/
def Obligations.TwoWordDatapathAgrees : Prop := ∀ v, splitEncode48 v = encode1750 v 48

/-! ### The operations -/

/-- 40_encode.md rule R63: ENC16 completes in every cycle with `in_ready = 1`, with the rule's corner cases and examples. The
clauses about the script, the cycle counter and the delivered list are about the model's own fields (log entries 2, 4 and
5). -/
def Obligations.Enc16Completes : Prop :=
  (∀ v, decode (requestWord 0x10 v) = .ok (.enc16 v)) ∧
  (∀ v, CompletesIn .w16 (.enc16 v) v) ∧
  wordValue .w16 0x100 0 = 1 / 2 ∧
  ∀ row ∈ ([
      (0x0000000000000000, [0x00, 0x00]), (0x8000000000000000, [0x00, 0x00]), (0xBFE0000000000000, [0x80, 0x3F]),
      (0x3FE0080000000000, [0x40, 0x40]), (0x3FEFFC0000000000, [0x40, 0x01]), (0x41DFF00000000000, [0x7F, 0xDF]),
      (0xC1E0000000000000, [0x80, 0x1F]), (0x41E0000000000000, [0x40, 0x1F]), (0x3DD0000000000000, [0x40, 0x20]),
      (0xBDE0000000000000, [0x80, 0x20]), (0x4024000000000000, [0x50, 0x04]), (0x3FE0000000000000, [0x40, 0x00])] :
      List (Binary64 × List Byte)),
    responseBytes (encode1750 row.1 16) = row.2

/-- 40_encode.md rule R64: ENC32 completes in every cycle with `in_ready = 1`, with the rule's corner cases and examples. The
clauses about the script, the cycle counter and the delivered list are about the model's own fields (log entries 2, 4 and
5). -/
def Obligations.Enc32Completes : Prop :=
  (∀ v, decode (requestWord 0x20 v) = .ok (.enc32 v)) ∧
  (∀ v, CompletesIn .w32 (.enc32 v) v) ∧
  wordValue .w32 0x500000 4 = 10 ∧
  ∀ row ∈ ([
      (0x0000000000000000, [0x00, 0x00, 0x00, 0x00]), (0x8000000000000000, [0x00, 0x00, 0x00, 0x00]),
      (0xBFE0000000000000, [0x80, 0x00, 0x00, 0xFF]), (0x3FE0000020000000, [0x40, 0x00, 0x01, 0x00]),
      (0x3FEFFFFFF0000000, [0x40, 0x00, 0x00, 0x01]), (0x47DFFFFFC0000000, [0x7F, 0xFF, 0xFF, 0x7F]),
      (0xC7E0000000000000, [0x80, 0x00, 0x00, 0x7F]), (0x47E0000000000000, [0x40, 0x00, 0x00, 0x7F]),
      (0x7FEFFFFFFFFFFFFF, [0x40, 0x00, 0x00, 0x7F]), (0xFFEFFFFFFFFFFFFF, [0x80, 0x00, 0x00, 0x7F]),
      (0x37D0000000000000, [0x40, 0x00, 0x00, 0x80]), (0xB7E0000000000000, [0x80, 0x00, 0x00, 0x80]),
      (0x0000000000000001, [0x40, 0x00, 0x00, 0x80]), (0x4024000000000000, [0x50, 0x00, 0x00, 0x04]),
      (0x3FE0000000000000, [0x40, 0x00, 0x00, 0x00])] : List (Binary64 × List Byte)),
    responseBytes (encode1750 row.1 32) = row.2

/-- 40_encode.md rule R65: ENC48 completes in every cycle with `in_ready = 1`, with the rule's corner cases and examples. The
clauses about the script, the cycle counter and the delivered list are about the model's own fields (log entries 2, 4 and
5). -/
def Obligations.Enc48Completes : Prop :=
  (∀ v, decode (requestWord 0x30 v) = .ok (.enc48 v)) ∧
  (∀ v, CompletesIn .w48 (.enc48 v) v) ∧
  wordValue .w48 0x8000000000 0 = -1 ∧
  ∀ row ∈ ([
      (0x0000000000000000, [0x00, 0x00, 0x00, 0x00, 0x00, 0x00]), (0x8000000000000000, [0x00, 0x00, 0x00, 0x00, 0x00, 0x00]),
      (0xBFE0000000000000, [0x80, 0x00, 0x00, 0xFF, 0x00, 0x00]), (0x3FE0000000002000, [0x40, 0x00, 0x00, 0x00, 0x00, 0x01]),
      (0xBFE0000000002000, [0xBF, 0xFF, 0xFF, 0x00, 0xFF, 0xFF]), (0x3FEFFFFFFFFFF000, [0x40, 0x00, 0x00, 0x01, 0x00, 0x00]),
      (0xBFB999999999999A, [0x99, 0x99, 0x99, 0xFD, 0x99, 0x9A]), (0xC7E0000000000000, [0x80, 0x00, 0x00, 0x7F, 0x00, 0x00]),
      (0x47E0000000000000, [0x40, 0x00, 0x00, 0x7F, 0x00, 0x00]), (0xBFF0000000000000, [0x80, 0x00, 0x00, 0x00, 0x00, 0x00])] :
      List (Binary64 × List Byte)),
    responseBytes (encode1750 row.1 48) = row.2

/-- 70_reset_and_hazards.md rules R86 and R89: an operation offered while `Q` is full waits with the requester; the edge has
every other effect and nothing is accepted. (The statement of where ENC16, ENC32 and ENC48 wait.) The clauses about the
script, the cycle counter and the delivered list are about the model's own fields (log entries 2, 4 and 5). -/
def Obligations.OperationsWaitWhenNotReady : Prop :=
  ∀ i s, s.inputs.rst = false → s.inReady Config.timing = false → ∃ t, exec i s = .next t ∧ EdgeAdds s t []

/-- 70_reset_and_hazards.md rule R82: an operation offered in a cycle of reset is not accepted, no response is transferred, and
`Q` is emptied. The clauses about the script, the cycle counter and the delivered list are about the model's own fields (log
entries 2, 4 and 5). -/
def Obligations.OperationsIgnoredInReset : Prop :=
  ∀ i s, s.inputs.rst = true →
    ∃ t, exec i s = .next t ∧ t.queue = [] ∧ t.delivered = s.delivered ∧ t.script = s.script.tail ∧ t.cycle = s.cycle + 1

/-- 20_memory.md rule R30: the frame of ENC16, ENC32 and ENC48 outside reset: the responses in `Q` keep their order and their
fields, at most the oldest leaves and only to the consumer, and at most one response is added, at the end. The clauses about
the script, the cycle counter and the delivered list are about the model's own fields (log entries 2, 4 and 5). -/
def Obligations.OperationFrame : Prop :=
  ∀ i s t, exec i s = .next t → s.inputs.rst = false →
    (∃ gone, gone.length ≤ 1 ∧ t.delivered = s.delivered ++ gone ∧
      ∃ added, added.length ≤ 1 ∧ gone ++ t.queue.map Entry.rsp = s.queue.map Entry.rsp ++ added) ∧
    t.script = s.script.tail ∧ t.cycle = s.cycle + 1

/-- 10_state.md rule R23: equal requests get equal responses, whatever the state they are accepted in. -/
def Obligations.ResponsesIndependentOfHistory : Prop :=
  ∀ s u s' u', s.inReady Config.timing = true → u.inReady Config.timing = true →
    s.inputs.inValid = true → u.inputs.inValid = true →
    s.inputs.inValue = u.inputs.inValue → s.inputs.inWidth = u.inputs.inWidth →
    step s = .next s' → step u = .next u' →
    s'.queue.getLast? = u'.queue.getLast? ∧
    s'.queue.getLast? = some { rsp := encode1750 s.inputs.inValue s.inputs.inWidth, age := 1 }

/-! ### One cycle of the machine -/

/-- A step runs the decoded instruction (log entries 8, 9 and 10): a request on the ports that decodes is run; one that does not
is answered with INVALID_WIDTH (60_exceptions.md rule R73); with none, the edge passes. -/
def Obligations.StepRunsDecodedOperation : Prop :=
  ∀ s,
    (∀ i, s.inputs.inValid = true → decode (offeredWord s) = .ok i → i.wellFormed = true → step s = exec i s) ∧
    (∀ c, s.inputs.inValid = true → decode (offeredWord s) = .error (.invalidWidth c) →
      step s = .next (clockEdge Config.timing (some { status := .invalidWidth, nbytes := 0, data := 0 }) s)) ∧
    (s.inputs.inValid = false → step s = .next (clockEdge Config.timing none s))

/-- 70_reset_and_hazards.md rule R85: the outputs of a cycle and the queue after its edge. The output fields with `out_valid =
0` are free values. -/
def Obligations.CycleFollowsEdgeRule : Prop :=
  ∀ s,
    (s.outputs Config.timing).inReady = (!s.inputs.rst && decide (s.queue.length < Config.depth)) ∧
    ((s.outputs Config.timing).outValid = true ↔
      s.inputs.rst = false ∧ ∃ e rest, s.queue = e :: rest ∧ Config.latency ≤ e.age) ∧
    (∀ e rest, s.queue = e :: rest → (s.outputs Config.timing).outValid = true →
      (s.outputs Config.timing).outStatus = e.rsp.status.code ∧ (s.outputs Config.timing).outNbytes = e.rsp.nbytes ∧
      (s.outputs Config.timing).outData = e.rsp.data) ∧
    (s.inputs.rst = false →
      ∃ t, step s = .next t ∧
        t.queue =
          (if (s.outputs Config.timing).outValid && s.inputs.outReady then s.queue.tail else s.queue).map
              (fun e => { e with age := e.age + 1 }) ++
            (if s.inputs.inValid && (s.outputs Config.timing).inReady then
              [{ rsp := encode1750 s.inputs.inValue s.inputs.inWidth, age := 1 }] else []))

/-- 40_encode.md rule R71 and 60_exceptions.md rule R78: every step and every operation has a next state. -/
def Obligations.MachineNeverStops : Prop :=
  (∀ s, ∃ t, step s = .next t) ∧ ∀ i s, ∃ t, exec i s = .next t

/-- 60_exceptions.md rule R73: a request with any other width is accepted and answered with INVALID_WIDTH, whatever its value.
The clauses about the script, the cycle counter and the delivered list are about the model's own fields (log entries 2, 4
and 5). -/
def Obligations.OtherWidthsAnswered : Prop :=
  ∀ s, s.inReady Config.timing = true → s.inputs.inValid = true →
    s.inputs.inWidth.toNat ≠ 16 → s.inputs.inWidth.toNat ≠ 32 → s.inputs.inWidth.toNat ≠ 48 →
    ∃ t, step s = .next t ∧ EdgeAdds s t [{ status := .invalidWidth, nbytes := 0, data := 0 }]

/-- 70_reset_and_hazards.md rules R82 and R83: from any state, one edge with `rst = 1` empties `Q` and transfers nothing, and in
that cycle the block is neither ready nor offering. That nothing is transferred is read from the model's delivered list (log
entry 5). -/
def Obligations.OneEdgeResets : Prop :=
  ∀ s, s.inputs.rst = true →
    (s.outputs Config.timing).inReady = false ∧ (s.outputs Config.timing).outValid = false ∧
    ∃ t, step s = .next t ∧ t.queue = State.reset.queue ∧ t.delivered = s.delivered

/-- 10_state.md rule R25: after reset `Q` is empty, nothing is offered, and the block is ready in the first cycle with `rst =
0`. -/
def Obligations.ResetLeavesEmptyQueue : Prop :=
  State.reset.queue = [] ∧ Sys2Proof.core.reset = State.reset ∧
  ∀ s : State, s.queue = [] →
    (s.outputs Config.timing).outValid = false ∧
    (s.inputs.rst = true → (s.outputs Config.timing).inReady = false) ∧
    (s.inputs.rst = false → (s.outputs Config.timing).inReady = true)

/-- 70_reset_and_hazards.md rule R86: a request that is not accepted has no effect, whatever its fields, and `in_valid` has none
while the block is not ready. -/
def Obligations.UnacceptedRequestHasNoEffect : Prop :=
  ∀ (s : State) i j rest, s.script = i :: rest → j.rst = i.rst → j.outReady = i.outReady →
    (s.inReady Config.timing = false ∨ i.inValid = false ∧ j.inValid = false) →
    step { s with script := j :: rest } = step s

/-- 70_reset_and_hazards.md rule R87: an offered response that is not taken stays offered with unchanged fields, unless reset
intervenes. -/
def Obligations.OfferedResponseHeld : Prop :=
  ∀ s t, s.outValid Config.timing = true → s.inputs.outReady = false → step s = .next t → t.inputs.rst = false →
    t.outValid Config.timing = true ∧ t.delivered = s.delivered ∧
    (t.outputs Config.timing).outData = (s.outputs Config.timing).outData ∧
    (t.outputs Config.timing).outNbytes = (s.outputs Config.timing).outNbytes ∧
    (t.outputs Config.timing).outStatus = (s.outputs Config.timing).outStatus

/-! ### Runs of the machine -/

/-- 10_state.md rule R24 and 40_encode.md rule R66: every step keeps the invariant. Its last clause is about the model's
delivered list (log entry 5). -/
def Obligations.StepKeepsInvariant : Prop := ∀ s t : State, s.Inv → step s = .next t → t.Inv

/-- 10_state.md rule R25: the state after reset meets the invariant. -/
def Obligations.ResetMeetsInvariant : Prop := State.reset.Inv

/-- 20_memory.md rule R31: without reset, the responses taken and the responses in `Q` are together exactly the answers of the
requests accepted, in order, and as many are taken as edges transferred one. The responses taken are the model's delivered
list (log entry 5), and the inputs of the run are the script's, then free values (log entries 2 and 3). -/
def Obligations.ResponsesInOrderExactlyOnce : Prop :=
  ∀ n s, (∀ k < n, (s.inputsAt k).rst = false) →
    (stateAfter n s).delivered =
      s.delivered ++ (s.queue.map Entry.rsp ++ (acceptedIn n s).map answer).take (transferCount n s) ∧
    (stateAfter n s).queue.map Entry.rsp =
      (s.queue.map Entry.rsp ++ (acceptedIn n s).map answer).drop (transferCount n s) ∧
    transferCount n s ≤ s.queue.length + (acceptedIn n s).length

/-- 70_reset_and_hazards.md rule R82: a request accepted before a reset edge whose response is not yet taken never gets one:
what is taken afterwards answers requests accepted afterwards. -/
def Obligations.ResetDropsInFlight : Prop :=
  ∀ n s, s.inputs.rst = true → (∀ k < n, (s.inputsAt (k + 1)).rst = false) →
    (stateAfter (n + 1) s).delivered ++ (stateAfter (n + 1) s).queue.map Entry.rsp =
      s.delivered ++ (acceptedIn n (nextState s)).map answer

/-- 70_reset_and_hazards.md rule R87: a request accepted at edge t is offered from the cycle after edge t + LATENCY − 1, if all
earlier responses have been transferred by then, and otherwise once they have been. -/
def Obligations.OfferedFromLatency : Prop :=
  ∀ s k, s.inputs.inValid = true → s.inReady Config.timing = true → (∀ j ≤ k + 1, (s.inputsAt j).rst = false) →
    (stateAfter (k + 1) s).delivered.length = s.delivered.length + s.queue.length →
    ((stateAfter (k + 1) s).outValid Config.timing = true ↔ Config.latency ≤ k + 1) ∧
    (Config.latency ≤ k + 1 →
      (stateAfter (k + 1) s).outputs Config.timing =
        offeredOutputs ((stateAfter (k + 1) s).inReady Config.timing) (encode1750 s.inputs.inValue s.inputs.inWidth))

/-- 70_reset_and_hazards.md rule R89: with `out_ready` held at 1, a request accepted at edge t into an empty `Q` is transferred
at edge t + LATENCY and not before. -/
def Obligations.TransferredAtLatency : Prop :=
  ∀ s, s.queue = [] → s.inputs.inValid = true →
    (∀ k ≤ Config.latency, (s.inputsAt k).rst = false ∧ (s.inputsAt k).outReady = true) →
    (stateAfter Config.latency s).delivered = s.delivered ∧
    (stateAfter (Config.latency + 1) s).delivered = s.delivered ++ [encode1750 s.inputs.inValue s.inputs.inWidth]

/-- 70_reset_and_hazards.md rule R89: if responses are never taken, `Q` fills to DEPTH entries, then nothing is accepted and
nothing is lost. -/
def Obligations.BackPressureFillsAndHolds : Prop :=
  ∀ n (s : State), s.queue.length ≤ Config.depth →
    (∀ k < n, (s.inputsAt k).rst = false ∧ (s.inputsAt k).outReady = false ∧ (s.inputsAt k).inValid = true) →
    (stateAfter n s).queue.length = min Config.depth (s.queue.length + n) ∧
    (stateAfter n s).delivered = s.delivered ∧
    (stateAfter n s).queue.map Entry.rsp = s.queue.map Entry.rsp ++ (acceptedIn n s).map answer ∧
    (Config.depth ≤ s.queue.length + n → (stateAfter n s).inReady Config.timing = false)

/-- 70_reset_and_hazards.md rule R90: on an instance with DEPTH ≥ LATENCY + 1 whose consumer always takes, one request per cycle
is sustained; with DEPTH ≤ LATENCY, a requester that always offers meets `in_ready = 0`. -/
def Obligations.OneRequestPerCycle : Prop :=
  ∀ (c : Timing) (s : State) (n : Nat), c.Legal → s.queue = [] →
    (∀ k ≤ n, (s.inputsAt k).rst = false ∧ (s.inputsAt k).outReady = true ∧ (s.inputsAt k).inValid = true) →
    (c.latency + 1 ≤ c.depth → ∀ k ≤ n, (edgesAfter c k s).inReady c = true) ∧
    (c.depth ≤ c.latency → c.depth ≤ n → (edgesAfter c c.depth s).inReady c = false)

/-- 10_state.md rule R17 and 00_scope.md rule R9, for the model's requester, which holds each request until it is accepted and
offers the next one at once (log entry 21: 70_reset_and_hazards.md rule R86 also lets a requester wait or withdraw a request). A
program so run to its end, with every request accepted and `Q` empty, has produced the answers of its requests in order, whatever
LATENCY, DEPTH and `out_ready`; and with a consumer that always takes, it does run to its end. The responses produced are the
model's delivered list (log entry 5). -/
def Obligations.ProgramEndState : Prop :=
  ∀ (c : Timing) (reqs : List Request) (s : State), c.Legal → s.queue = [] → s.delivered = [] →
    (∀ consumer, (runProgram c consumer reqs s).1 = [] → (runProgram c consumer reqs s).2.queue = [] →
      (runProgram c consumer reqs s).2.delivered = reqs.map answer) ∧
    ∃ n, (runProgram c (List.replicate n true) reqs s).1 = [] ∧ (runProgram c (List.replicate n true) reqs s).2.queue = []

/-- 20_memory.md rule R32 and 60_exceptions.md rule R81: an edge of one instance changes that instance, by its own parameters
and state alone, and no other. -/
def Obligations.InstancesIndependent : Prop :=
  ∀ (k : Nat) (units : List Unit1750) (j : Nat),
    (edgeOfInstance k units)[j]? =
      if j = k then units[j]?.map (fun u => { timing := u.timing, state := cycleEdge u.timing u.state }) else units[j]?
end

