-- ==== Sys2Proof/Laws/Decode.lean ====
section
/-! SUPPORT. The fields of a request word, and the formats the width codes select. -/

namespace Sys2Proof

@[simp] theorem widthField_requestWord (w : WidthCode) (v : Binary64) : widthField (requestWord w v) = w := by
  apply BitVec.eq_of_getLsbD_eq
  intro i hi
  simp only [widthField, requestWord, BitVec.getLsbD_extractLsb', BitVec.getLsbD_append]
  simp [hi]

@[simp] theorem valueField_requestWord (w : WidthCode) (v : Binary64) : valueField (requestWord w v) = v := by
  apply BitVec.eq_of_getLsbD_eq
  intro i hi
  simp only [valueField, requestWord, BitVec.getLsbD_extractLsb', BitVec.getLsbD_append]
  simp [hi]

theorem requestWord_fields (w : RequestWord) : requestWord (widthField w) (valueField w) = w := by
  apply BitVec.eq_of_getLsbD_eq
  intro i hi
  simp only [widthField, valueField, requestWord, BitVec.getLsbD_append, BitVec.getLsbD_extractLsb']
  by_cases h : i < 64
  · simp [h]
  · have : i - 64 < 8 := by omega
    have h2 : 64 + (i - 64) = i := by omega
    simp [h, this, h2]

theorem formatOfWidth_eq_some (w : WidthCode) (f : Format) :
    formatOfWidth w = some f ↔ w = Machine.widthCode f := by
  unfold formatOfWidth Machine.widthCode
  cases f <;> split <;> simp_all <;> split <;> simp_all

@[simp] theorem formatOfWidth_widthCode (f : Format) : formatOfWidth (Machine.widthCode f) = some f :=
  (formatOfWidth_eq_some _ _).mpr rfl

theorem formatOfWidth_eq_none (w : WidthCode) :
    formatOfWidth w = none ↔ w ≠ 0x10 ∧ w ≠ 0x20 ∧ w ≠ 0x30 := by
  unfold formatOfWidth
  split <;> simp_all
  split <;> simp_all

end Sys2Proof
end

