-- ==== Sys2Proof/Laws/Encode.lean ====
section
/-! SUPPORT. The ranges of the operand's fields, the cases of its magnitude, and the cases of `Encode1750`. -/

namespace Sys2Proof.Machine

theorem biasedExponent_lt (v : Binary64) : biasedExponent v < 2048 := (v.extractLsb' 52 11).isLt

theorem trailingSignificand_lt (v : Binary64) : trailingSignificand v < 2 ^ 52 := (v.extractLsb' 0 52).isLt

/-- The three forms of a finite magnitude, with the ranges of their fields. -/
theorem magnitude_cases (v : Binary64) {mag : Magnitude} (h : magnitude v = some mag) :
    (mag = .zero ∧ biasedExponent v = 0 ∧ trailingSignificand v = 0) ∨
    (mag = .subnormal (trailingSignificand v) ∧ biasedExponent v = 0 ∧ trailingSignificand v ≠ 0) ∨
    (mag = .normal (biasedExponent v) (trailingSignificand v) ∧ biasedExponent v ≠ 0 ∧ biasedExponent v ≠ 2047) := by
  by_cases hb : biasedExponent v = 0
  · by_cases hf : trailingSignificand v = 0 <;> simp_all [magnitude, classify]
  · by_cases hi : biasedExponent v = 2047
    · by_cases hf : trailingSignificand v = 0 <;> simp_all [magnitude, classify]
    · simp_all [magnitude, classify]

theorem magnitude_eq_none (v : Binary64) : magnitude v = none ↔ biasedExponent v = 2047 := by
  by_cases hb : biasedExponent v = 0
  · by_cases hf : trailingSignificand v = 0 <;> simp [magnitude, classify, hb, hf]
  · by_cases hi : biasedExponent v = 2047
    · by_cases hf : trailingSignificand v = 0 <;> simp [magnitude, classify, hi, hf]
    · simp [magnitude, classify, hb, hi]

/-- The bit length of a non-zero number. -/
theorem bitlen_spec {x : Nat} (h : x ≠ 0) : 2 ^ (bitlen x - 1) ≤ x ∧ x < 2 ^ bitlen x :=
  ⟨by simpa [bitlen] using Nat.log2_self_le h, Nat.lt_log2_self⟩

theorem encode1750_none {w : WidthCode} (v : Binary64) (h : formatOfWidth w = none) :
    encode1750 v w = raiseError .invalidWidth := by simp [encode1750, h]

theorem encode1750_nonfinite {v : Binary64} (f : Format) (h : magnitude v = none) :
    encode1750 v (widthCode f) = raiseError .nonfiniteInput := by simp [encode1750, h]

theorem encode1750_finite {v : Binary64} {mag : Magnitude} (f : Format) (h : magnitude v = some mag) :
    encode1750 v (widthCode f) = encodeFinite f (signBit v) mag := by simp [encode1750, h]

/-- One iteration of the normalization loop. -/
theorem normalizeLoop_succ (n fuel : Nat) (a : Scaled) :
    normalizeLoop n (fuel + 1) a =
      if a.mantissa.testBit (n - 1) && a.mantissa.testBit (n - 2) then
        normalizeLoop n fuel { mantissa := (a.mantissa <<< 1) % 2 ^ n, exponent := a.exponent - 1 }
      else a := rfl

/-- The loop stops where the two top bits are not both 1. -/
theorem normalizeLoop_stop (n fuel : Nat) (a : Scaled)
    (h : (a.mantissa.testBit (n - 1) && a.mantissa.testBit (n - 2)) = false) : normalizeLoop n fuel a = a := by
  cases fuel with
  | zero => rfl
  | succ k => simp [normalizeLoop_succ, h]

theorem slice_eq (v hi lo : Nat) : slice v hi lo = v / 2 ^ lo % 2 ^ (hi + 1 - lo) := by
  simp [slice, Nat.shiftRight_eq_div_pow]

/-- The byte lanes are the big-endian integer of the bytes, left-justified. -/
theorem placeBytes_toNat (bytes : List Byte) :
    (placeBytes bytes).toNat = bigEndian bytes * 2 ^ (48 - 8 * bytes.length) % 2 ^ 48 := by
  simp [placeBytes, Nat.shiftLeft_eq]

end Sys2Proof.Machine
end

