-- ==== Sys2Proof/Laws/State.lean ====
section
/-! SUPPORT. One lemma per field per update of the state and of a response, true by rfl or by the cases of the update. -/

namespace Sys2Proof.Machine

/-! ### The next cycle -/

@[simp] theorem nextCycle_queue (s : State) : (nextCycle s).queue = s.queue := rfl
@[simp] theorem nextCycle_script (s : State) : (nextCycle s).script = s.script.tail := rfl
@[simp] theorem nextCycle_cycle (s : State) : (nextCycle s).cycle = s.cycle + 1 := rfl
@[simp] theorem nextCycle_delivered (s : State) : (nextCycle s).delivered = s.delivered := rfl

/-! ### Reset -/

@[simp] theorem resetEdge_queue (s : State) : (resetEdge s).queue = [] := rfl
@[simp] theorem resetEdge_script (s : State) : (resetEdge s).script = s.script.tail := rfl
@[simp] theorem resetEdge_cycle (s : State) : (resetEdge s).cycle = s.cycle + 1 := rfl
@[simp] theorem resetEdge_delivered (s : State) : (resetEdge s).delivered = s.delivered := rfl

/-! ### Ageing -/

@[simp] theorem older_rsp (e : Entry) : e.older.rsp = e.rsp := rfl
@[simp] theorem older_age (e : Entry) : e.older.age = e.age + 1 := rfl
@[simp] theorem ageStep_queue (s : State) : (ageStep s).queue = s.queue.map Entry.older := rfl
@[simp] theorem ageStep_script (s : State) : (ageStep s).script = s.script := rfl
@[simp] theorem ageStep_cycle (s : State) : (ageStep s).cycle = s.cycle := rfl
@[simp] theorem ageStep_delivered (s : State) : (ageStep s).delivered = s.delivered := rfl

/-! ### Transfer -/

@[simp] theorem transferStep_script (c : Timing) (s : State) : (transferStep c s).script = s.script := by
  unfold transferStep; split <;> [rfl; (split <;> rfl)]

@[simp] theorem transferStep_cycle (c : Timing) (s : State) : (transferStep c s).cycle = s.cycle := by
  unfold transferStep; split <;> [rfl; (split <;> rfl)]

/-! ### Acceptance -/

@[simp] theorem acceptStep_none (ready : Bool) (s : State) : acceptStep ready none s = s := rfl
@[simp] theorem acceptStep_not_ready (offer : Option Response) (s : State) : acceptStep false offer s = s := by
  cases offer <;> rfl
@[simp] theorem acceptStep_ready (r : Response) (s : State) :
    acceptStep true (some r) s = { s with queue := s.queue ++ [{ rsp := r, age := 1 }] } := rfl
@[simp] theorem acceptStep_script (ready : Bool) (offer : Option Response) (s : State) :
    (acceptStep ready offer s).script = s.script := by cases offer <;> cases ready <;> rfl
@[simp] theorem acceptStep_cycle (ready : Bool) (offer : Option Response) (s : State) :
    (acceptStep ready offer s).cycle = s.cycle := by cases offer <;> cases ready <;> rfl
@[simp] theorem acceptStep_delivered (ready : Bool) (offer : Option Response) (s : State) :
    (acceptStep ready offer s).delivered = s.delivered := by cases offer <;> cases ready <;> rfl

/-! ### Offering -/

@[simp] theorem withFetchWord_queue (s : State) (nbits w : Nat) : (s.withFetchWord nbits w).queue = s.queue := rfl
@[simp] theorem withFetchWord_cycle (s : State) (nbits w : Nat) : (s.withFetchWord nbits w).cycle = s.cycle := rfl
@[simp] theorem withFetchWord_delivered (s : State) (nbits w : Nat) :
    (s.withFetchWord nbits w).delivered = s.delivered := rfl
@[simp] theorem withFetchWord_inputs (s : State) (nbits w : Nat) :
    (s.withFetchWord nbits w).inputs =
      { s.inputs with
        rst := false
        inValid := true
        inValue := valueField (tableWord nbits w)
        inWidth := widthField (tableWord nbits w) } := rfl
@[simp] theorem driven_queue (s : State) (b : Bool) (reqs : List Request) : (s.driven b reqs).queue = s.queue := rfl
@[simp] theorem driven_delivered (s : State) (b : Bool) (reqs : List Request) :
    (s.driven b reqs).delivered = s.delivered := rfl
@[simp] theorem driven_inputs (s : State) (b : Bool) (reqs : List Request) :
    (s.driven b reqs).inputs = offerFirst b reqs := rfl
@[simp] theorem offerFirst_rst (b : Bool) (reqs : List Request) : (offerFirst b reqs).rst = false := by cases reqs <;> rfl
@[simp] theorem offerFirst_outReady (b : Bool) (reqs : List Request) : (offerFirst b reqs).outReady = b := by
  cases reqs <;> rfl

/-! ### Responses -/

@[simp] theorem raiseError_status (k : ErrorKind) : (raiseError k).status = k.status := rfl
@[simp] theorem raiseError_nbytes (k : ErrorKind) : (raiseError k).nbytes = 0 := rfl
@[simp] theorem raiseError_data (k : ErrorKind) : (raiseError k).data = 0 := rfl
@[simp] theorem okResponse_status (f : Format) (m xf : Nat) : (okResponse f m xf).status = .ok := rfl
@[simp] theorem okResponse_nbytes (f : Format) (m xf : Nat) :
    (okResponse f m xf).nbytes = BitVec.ofNat 3 (params f).nbytes := rfl
@[simp] theorem okResponse_data (f : Format) (m xf : Nat) :
    (okResponse f m xf).data = placeBytes (packBytes f m xf) := rfl

end Sys2Proof.Machine
end

