-- ==== Sys2Proof/Laws/Ops.lean ====
section
/-! SUPPORT. What each operation of the cycle layer can do, said once: the ports, the three steps of a rising edge, and the
edge. -/

namespace Sys2Proof.Machine

/-! ### Ports -/

theorem inputs_of_script (s : State) {i : Inputs} {rest : List Inputs} (h : s.script = i :: rest) : s.inputs = i := by
  simp [State.inputs, State.inputsAt, h]

theorem inputsAt_zero (s : State) : s.inputsAt 0 = s.inputs := rfl

/-- One cycle later every input is one nearer. -/
theorem inputsAt_of_next (s t : State) (k : Nat) (hs : t.script = s.script.tail) (hc : t.cycle = s.cycle + 1) :
    t.inputsAt k = s.inputsAt (k + 1) := by
  cases h : s.script <;> simp [State.inputsAt, hs, hc, h, Nat.add_assoc, Nat.add_comm 1 k]

theorem inReady_iff (c : Timing) (s : State) :
    s.inReady c = true ↔ s.inputs.rst = false ∧ s.queue.length < c.depth := by
  simp [State.inReady]

theorem outValid_nil (c : Timing) (s : State) (h : s.queue = []) : s.outValid c = false := by
  simp [State.outValid, h]

theorem outValid_cons (c : Timing) (s : State) {e : Entry} {rest : List Entry} (h : s.queue = e :: rest) :
    s.outValid c = (!s.inputs.rst && decide (c.latency ≤ e.age)) := by
  simp [State.outValid, h]

theorem outValid_not_reset (c : Timing) (s : State) (h : s.outValid c = true) : s.inputs.rst = false := by
  simp only [State.outValid, Bool.and_eq_true] at h
  simpa using h.1

theorem outputs_offered (c : Timing) (s : State) {e : Entry} {rest : List Entry} (h : s.queue = e :: rest)
    (hv : s.outValid c = true) : s.outputs c = offeredOutputs (s.inReady c) e.rsp := by
  simp [State.outputs, h, hv]

theorem outputs_free (c : Timing) (s : State) (hv : s.outValid c = false) :
    s.outputs c = freeOutputs (s.inReady c) s.cycle := by
  unfold State.outputs; split <;> simp [hv]

/-! ### The steps of a rising edge -/

theorem transferStep_queue (c : Timing) (s : State) :
    (transferStep c s).queue = if s.outValid c && s.inputs.outReady then s.queue.tail else s.queue := by
  unfold transferStep
  split
  · next h => simp [h]
  · next h => split <;> simp_all

theorem transferStep_delivered (c : Timing) (s : State) :
    (transferStep c s).delivered =
      s.delivered ++ if s.outValid c && s.inputs.outReady then (s.queue.take 1).map Entry.rsp else [] := by
  unfold transferStep
  split
  · next h => simp [h]
  · next h => split <;> simp_all

theorem acceptStep_queue (ready : Bool) (offer : Option Response) (s : State) :
    (acceptStep ready offer s).queue =
      s.queue ++ (if ready then offer.toList else []).map fun r => { rsp := r, age := 1 } := by
  cases offer <;> cases ready <;> simp [acceptStep]

/-! ### The rising edge -/

theorem clockEdge_reset (c : Timing) (offer : Option Response) (s : State) (h : s.inputs.rst = true) :
    clockEdge c offer s = resetEdge s := by simp [clockEdge, h]

theorem clockEdge_queue (c : Timing) (offer : Option Response) (s : State) (h : s.inputs.rst = false) :
    (clockEdge c offer s).queue =
      (if s.outValid c && s.inputs.outReady then s.queue.tail else s.queue).map Entry.older ++
        (if s.inReady c then offer.toList else []).map fun r => { rsp := r, age := 1 } := by
  simp [clockEdge, h, acceptStep_queue, transferStep_queue]

theorem clockEdge_delivered (c : Timing) (offer : Option Response) (s : State) (h : s.inputs.rst = false) :
    (clockEdge c offer s).delivered =
      s.delivered ++ if s.outValid c && s.inputs.outReady then (s.queue.take 1).map Entry.rsp else [] := by
  simp [clockEdge, h, transferStep_delivered]

@[simp] theorem clockEdge_script (c : Timing) (offer : Option Response) (s : State) :
    (clockEdge c offer s).script = s.script.tail := by
  unfold clockEdge; split <;> simp

@[simp] theorem clockEdge_cycle (c : Timing) (offer : Option Response) (s : State) :
    (clockEdge c offer s).cycle = s.cycle + 1 := by
  unfold clockEdge; split <;> simp

end Sys2Proof.Machine
end

