-- ==== Sys2Proof/Laws/PerInstr.lean ====
section
/-! SUPPORT. Facts about every operation as syntax, one lemma per constructor. -/

namespace Sys2Proof.Laws.EncodedFields

/-- The word of an operation holds its width code and its operand, and nothing else (30_encoding.md rules R35 and R36). -/
def Statement (i : Instr) : Prop :=
  i.wellFormed = true ∧ widthField (encode i) = Machine.widthCode i.format ∧ valueField (encode i) = i.operand

theorem enc16 (value : Binary64) : Statement (.enc16 value) :=
  ⟨rfl, widthField_requestWord _ _, valueField_requestWord _ _⟩

theorem enc32 (value : Binary64) : Statement (.enc32 value) :=
  ⟨rfl, widthField_requestWord _ _, valueField_requestWord _ _⟩

theorem enc48 (value : Binary64) : Statement (.enc48 value) :=
  ⟨rfl, widthField_requestWord _ _, valueField_requestWord _ _⟩

end Sys2Proof.Laws.EncodedFields
end

