-- ==== Sys2Proof/Laws/Step.lean ====
section
/-! SUPPORT. What a step can do, said once: it is always a rising edge at which some request, or none, is offered. -/

namespace Sys2Proof.Machine

theorem exec_is_edge (i : Instr) (s : State) :
    exec i s = .next (clockEdge Config.timing (some (encode1750 i.operand (widthCode i.format))) s) := by
  cases i <;> rfl

theorem step_is_edge (s : State) : ∃ offer, step s = .next (clockEdge Config.timing offer s) := by
  unfold step
  by_cases hv : s.inputs.inValid = true
  · simp only [hv, if_true]
    cases decode (offeredWord s) with
    | error _ => exact ⟨_, rfl⟩
    | ok i => exact ⟨_, exec_is_edge i s⟩
  · exact ⟨none, by simp [hv, idleEdge]⟩

theorem nextState_is_edge (s : State) : ∃ offer, nextState s = clockEdge Config.timing offer s := by
  obtain ⟨offer, h⟩ := step_is_edge s
  exact ⟨offer, by simp [nextState, h]⟩

@[simp] theorem nextState_script (s : State) : (nextState s).script = s.script.tail := by
  obtain ⟨_, h⟩ := nextState_is_edge s; simp [h]

@[simp] theorem nextState_cycle (s : State) : (nextState s).cycle = s.cycle + 1 := by
  obtain ⟨_, h⟩ := nextState_is_edge s; simp [h]

theorem nextState_inputsAt (s : State) (k : Nat) : (nextState s).inputsAt k = s.inputsAt (k + 1) :=
  inputsAt_of_next s _ k (nextState_script s) (nextState_cycle s)

theorem stateAfter_inputsAt (n k : Nat) (s : State) : (stateAfter n s).inputsAt k = s.inputsAt (n + k) := by
  induction n generalizing s with
  | zero => simp [stateAfter]
  | succ n ih => rw [stateAfter, ih, nextState_inputsAt]; congr 1; omega

/-- An edge at which the consumer is not ready delivers nothing. -/
theorem nextState_delivered_of_not_ready (s : State) (h : s.inputs.outReady = false) :
    (nextState s).delivered = s.delivered := by
  obtain ⟨offer, he⟩ := nextState_is_edge s
  cases hr : s.inputs.rst with
  | true => simp [he, clockEdge_reset _ _ _ hr]
  | false => simp [he, clockEdge_delivered _ _ _ hr, h]

theorem stateAfter_delivered_of_not_ready (n : Nat) (s : State) (h : ∀ k < n, (s.inputsAt k).outReady = false) :
    (stateAfter n s).delivered = s.delivered := by
  induction n generalizing s with
  | zero => rfl
  | succ n ih =>
    rw [stateAfter, ih _ fun k hk => by rw [nextState_inputsAt]; exact h (k + 1) (by omega),
      nextState_delivered_of_not_ready s (h 0 (by omega))]

end Sys2Proof.Machine
end

