-- ==== Sys2Proof/Tests/Slice0.lean ====
section
/-! SUPPORT. Tests, each with expected values from spec/95_test_vectors.md or worked by hand from the rule it names, and for every
statement with hypotheses a witness that meets them. -/

namespace Sys2Proof.Machine.Tests

/-! ### Helpers -/

/-- A state in which the ports carry `i` in the present cycle. -/
def inCycle (q : List Entry) (i : Inputs) : State := { queue := q, script := [i], cycle := 0, delivered := [] }

/-- Ports outside reset with a request on them. -/
def asking (w : WidthCode) (v : Binary64) (outReady : Bool) : Inputs :=
  { rst := false, inValid := true, inValue := v, inWidth := w, outReady := outReady }

/-- Ports with nothing on them but `out_ready`. -/
def quiet (rst outReady : Bool) : Inputs :=
  { rst := rst, inValid := false, inValue := 0, inWidth := 0, outReady := outReady }

/-- The responses A to D of 95_test_vectors.md section 3.4. -/
def rspA : Response := { status := .ok, nbytes := 4, data := 0x500000040000 }
def rspB : Response := { status := .ok, nbytes := 2, data := 0x803F00000000 }
def rspC : Response := { status := .invalidWidth, nbytes := 0, data := 0 }

/-- The status code, the byte count and the lanes of a response. -/
def shown (r : Response) : Nat × Nat × Nat := (r.status.code.toNat, r.nbytes.toNat, r.data.toNat)

/-! ### Well-formedness -/

theorem test_width_256_ill_formed : (Asm.enc 256 (.bits 0)).wellFormed = false := by decide
theorem test_zero_denominator_ill_formed : (Literal.number false 1 0).wellFormed = false := by decide
theorem test_ill_formed_operand_ill_formed :
    [(Asm.enc16 (.number true 3 0)).wellFormed, (Asm.enc32 (.number true 3 0)).wellFormed,
      (Asm.enc48 (.number true 3 0)).wellFormed, (Asm.enc 16 (.number true 3 0)).wellFormed] =
      [false, false, false, false] := by decide
theorem test_ill_formed_line_refused : (assemble (.enc 256 (.bits 0))).isNone = true := by decide
theorem test_width_20_selects_nothing :
    (Request.mk 20 0).selectsOperation = false ∧ (Request.mk 48 0).selectsOperation = true := by decide
theorem test_every_instruction_well_formed :
    [Instr.enc16 0, Instr.enc32 0, Instr.enc48 0].all Instr.wellFormed = true := by decide

/-! ### Decoding: the words of 30_encoding.md rule R45, written out from the width field and the operand -/

theorem test_decode_enc16 : decodeTableWord 72 0x10BFE0000000000000 = some (.enc16 0xBFE0000000000000) := by decide
theorem test_decode_enc32 : decodeTableWord 72 0x204024000000000000 = some (.enc32 0x4024000000000000) := by decide
theorem test_decode_enc48 : decodeTableWord 72 0x30FFFFFFFFFFFFFFFF = some (.enc48 0xFFFFFFFFFFFFFFFF) := by decide
/-- The widths of 95_test_vectors.md section 2.6. -/
theorem test_decode_other_widths :
    ([0x00, 0x08, 0x0F, 0x11, 0x18, 0x1F, 0x21, 0x2F, 0x31, 0x40, 0xFF] : List WidthCode).all
      (fun c => (decodeTableWord 72 ((requestWord c 0x3FF0000000000000).toNat)).isNone) = true := by decide
/-- 95_test_vectors.md section 3.1, request 2. -/
theorem test_encode_enc16 : encode (.enc16 0xBFE0000000000000) = 0x10BFE0000000000000 := by decide

/-! ### Literals (the bits of 95_test_vectors.md sections 2.1 and 2.4) -/

theorem test_literal_tenth : literalBits (.number false 1 10) = 0x3FB999999999999A := by decide +kernel
theorem test_literal_minus_1e_300 : literalBits (.number true 1 (10 ^ 300)) = 0x81A56E1FC2F8F359 := by decide +kernel
theorem test_response_text :
    responseText rspB = "-> OK [80 3F]" ∧ responseText rspC = "-> INVALID_WIDTH" := by decide +kernel

/-! ### The conversion (95_test_vectors.md sections 1 and 2) -/

/-- Negated power of two; tie; carry; both saturations; the largest subnormal. -/
theorem test_enc16_vectors :
    ([(0xBFE0000000000000, 0x803F), (0x3FE0080000000000, 0x4040), (0xBFE0080000000000, 0xBFC0),
      (0x3FE007FFFFFFFFFF, 0x4000), (0xBFEFFC0000000000, 0x8000), (0xBFB999999999999A, 0x99BD),
      (0xFE37E43C8800759C, 0xA09F), (0x3DD0000000000000, 0x4020), (0x000FFFFFFFFFFFFF, 0x4020)] :
      List (Binary64 × Nat)).all
      (fun row => shown (encode1750 row.1 16) == (0, 2, row.2 * 2 ^ 32)) = true := by decide

/-- The source's 10.0 and 0.5; C10's two overflow cases and its underflow case; DBL_MAX; a subnormal. -/
theorem test_enc32_vectors :
    ([(0x4024000000000000, 0x50000004), (0x3FE0000000000000, 0x40000000), (0x47DFFFFFF0000000, 0x4000007F),
      (0xC7DFFFFFF0000000, 0x8000007F), (0xB7E0000000000000, 0x80000080), (0x7FEFFFFFFFFFFFFF, 0x4000007F),
      (0x000C000000000000, 0x60000080), (0xC00921FB54442D18, 0x9B781302)] : List (Binary64 × Nat)).all
      (fun row => shown (encode1750 row.1 32) == (0, 4, row.2 * 2 ^ 16)) = true := by decide

/-- The source's 2^126 and -1.0; borrows across the word boundary; the smallest negative subnormal. -/
theorem test_enc48_vectors :
    ([(0x47D0000000000000, 0x4000007F0000), (0xBFF0000000000000, 0x800000000000), (0xBFE0000000002000, 0xBFFFFF00FFFF),
      (0xBFB999999999999A, 0x999999FD999A), (0xC7DFFFFFFFFFC000, 0x8000007F0001), (0x8000000000000001, 0x800000800000),
      (0x01A56E1FC2F8F359, 0x55B87F800BE4), (0x8000000000000000, 0)] : List (Binary64 × Nat)).all
      (fun row => shown (encode1750 row.1 48) == (0, 6, row.2) && shown (splitEncode48 row.1) == (0, 6, row.2)) = true := by
  decide

/-- 95_test_vectors.md section 2.6. -/
theorem test_error_vectors :
    ([(0x7FF0000000000000, 16, 2), (0xFFF0000000000000, 32, 2), (0x7FF8000000000000, 48, 2), (0x7FF0000000000001, 32, 2),
      (0xFFFFFFFFFFFFFFFF, 48, 2), (0x7FF8000000000000, 20, 1), (0xFFF0000000000000, 0, 1), (0x3FF0000000000000, 255, 1)] :
      List (Binary64 × WidthCode × Nat)).all
      (fun row => shown (encode1750 row.1 row.2.1) == (row.2.2, 0, 0)) = true := by decide

/-- 30_encoding.md rule R41 on the source's S2 and S3 (95_test_vectors.md section 1). -/
theorem test_word_values :
    wordValue .w48 0x8000000000 0 = -1 ∧ wordValue .w32 0x500000 4 = 10 := by
  constructor <;> norm_num [wordValue, sext, params, Nat.testBit, Nat.shiftRight_eq_div_pow]

/-! ### The operations, one step each from reset (95_test_vectors.md section 3.1, requests 2, 1 and 4) -/

def queueAfter (o : Host.Outcome State Fault Refusal) : List Entry :=
  match o with
  | .next t => t.queue
  | .fault _ => []
  | .refused _ => []

theorem test_enc16_runs_from_reset :
    queueAfter (step (State.reset.withFetchWord 72 0x10BFE0000000000000)) = [{ rsp := rspB, age := 1 }] := by decide
theorem test_enc32_runs_from_reset :
    queueAfter (step (State.reset.withFetchWord 72 0x204024000000000000)) = [{ rsp := rspA, age := 1 }] := by decide
theorem test_enc48_runs_from_reset :
    queueAfter (step (State.reset.withFetchWord 72 0x30BFF0000000000000)) =
      [{ rsp := { status := .ok, nbytes := 6, data := 0x800000000000 }, age := 1 }] := by decide
/-- Request 3: both error causes, the width wins. -/
theorem test_other_width_runs_from_reset :
    queueAfter (step (State.reset.withFetchWord 72 0x147FF8000000000000)) = [{ rsp := rspC, age := 1 }] := by decide

/-! ### Single cycles of the trace of 95_test_vectors.md section 3.4 (LATENCY = 2, DEPTH = 2) -/

def timingP4 : Timing := { latency := 2, depth := 2 }

/-- Cycle 3: A is offered, `Q` is full, C waits. -/
theorem test_trace_cycle3 :
    (inCycle [⟨rspA, 2⟩, ⟨rspB, 1⟩] (asking 24 0x3FF0000000000000 false)).outputs timingP4 =
        { inReady := false, outValid := true, outData := 0x500000040000, outNbytes := 4, outStatus := 0 } ∧
      (cycleEdge timingP4 (inCycle [⟨rspA, 2⟩, ⟨rspB, 1⟩] (asking 24 0x3FF0000000000000 false))).queue =
        [⟨rspA, 3⟩, ⟨rspB, 2⟩] := by decide

/-- Cycle 4: A leaves a full `Q`, and C is still not accepted. -/
theorem test_trace_cycle4 :
    (cycleEdge timingP4 (inCycle [⟨rspA, 3⟩, ⟨rspB, 2⟩] (asking 24 0x3FF0000000000000 true))).queue = [⟨rspB, 3⟩] ∧
      (cycleEdge timingP4 (inCycle [⟨rspA, 3⟩, ⟨rspB, 2⟩] (asking 24 0x3FF0000000000000 true))).delivered = [rspA] := by
  decide

/-- Cycle 5: B leaves and C is accepted at one edge. -/
theorem test_trace_cycle5 :
    (cycleEdge timingP4 (inCycle [⟨rspB, 3⟩] (asking 24 0x3FF0000000000000 true))).queue = [⟨rspC, 1⟩] := by decide

/-- Cycle 7: reset drops C and the entry after it and accepts nothing. -/
theorem test_trace_cycle7 :
    (cycleEdge timingP4 (inCycle [⟨rspC, 2⟩, ⟨rspC, 1⟩] { asking 48 0xBFF0000000000000 false with rst := true })).queue = [] ∧
      (inCycle [⟨rspC, 2⟩, ⟨rspC, 1⟩] { asking 48 0xBFF0000000000000 false with rst := true }).outValid timingP4 = false := by
  decide

/-! ### Witnesses: request words -/

theorem witness_PseudoFormsExpand : 255 < 256 ∧ (Literal.number true 1 3).wellFormed = true := by decide

theorem witness_LiteralIsNearest : (10 : Nat) ≠ 0 := by decide

theorem witness_FetchedWordRuns : State.reset.queue = [] := rfl

/-! ### Witnesses: operands and the conversion -/

theorem witness_SignExtensionInvertsTwosComplement :
    1 ≤ 6 ∧ (-2 : Int) ^ 5 ≤ -32 ∧ (31 : Int) < 2 ^ (6 - 1) ∧ 63 < 2 ^ 6 := by decide

/-- One operand of each finite class, at the ends of the classes. -/
theorem witness_OperandClassesDenote :
    biasedExponent 0x8000000000000000 = 0 ∧ biasedExponent 0x000FFFFFFFFFFFFF = 0 ∧
      biasedExponent 0x0010000000000000 = 1 ∧ biasedExponent 0x7FEFFFFFFFFFFFFF = 2046 ∧
      biasedExponent 0x7FF0000000000000 = 2047 := by decide

/-- Operands of the three finite classes; for the statements about `magnitude v = some mag`. -/
theorem witness_finite_magnitudes :
    magnitude 0x8000000000000000 = some .zero ∧ magnitude 0x0000000000000001 = some (.subnormal 1) ∧
      magnitude 0x3FEFFFFFFFFFF000 = some (.normal 1022 0xFFFFFFFFFF000) := by decide

theorem witness_FrexpDecomposition :
    magnitude 0xC024000000000000 = some (.normal 1026 0x4000000000000) ∧
      (∃ x, realValue 0xC024000000000000 = some x) ∧ classify 0xC024000000000000 = .normal ∧
      magnitude 0x0000000000000001 = some (.subnormal 1) ∧ (∃ x, realValue 0x0000000000000001 = some x) ∧
      classify 0x0000000000000001 = .subnormal :=
  ⟨by decide, ⟨_, rfl⟩, by decide, by decide, ⟨_, rfl⟩, by decide⟩

theorem witness_ScaledMantissaIsFloor :
    magnitude 0 = some .zero ∧ magnitude 0x3FE0080000000000 = some (.normal 1022 0x80000000000) := by decide

theorem witness_RoundingIsTiesAway :
    magnitude 0x8000000000000000 = some .zero ∧ magnitude 0xBFE0080000000000 = some (.normal 1022 0x80000000000) := by decide

/-- With the carry (1 − 2^−11) and without it (0.5), in the 16-bit format. -/
theorem witness_RenormalizationOnCarry :
    magnitude 0x3FEFFC0000000000 = some (.normal 1022 0xFFC0000000000) ∧
      roundHalfUp (rawMantissa 10 (.normal 1022 0xFFC0000000000)) = 2 ^ 9 ∧
      magnitude 0x3FE0000000000000 = some (.normal 1022 0) ∧
      roundHalfUp (rawMantissa 10 (.normal 1022 0)) ≠ 2 ^ 9 := by decide

theorem witness_NegationIsTwosComplement : 511 < 2 ^ ((params .w16).mantissaBits - 1) := by decide

/-- Both sides of the statement: a negated power of two, and a value that is not one. -/
theorem witness_NormalizationRunsAtMostOnce :
    magnitude 0xBFE0000000000000 = some (.normal 1022 0) ∧ 1 ≤ 1 ∧
      (roundedMagnitude (params .w16) (.normal 1022 0)).mantissa = 2 ^ 8 ∧
      magnitude 0xC024000000000000 = some (.normal 1026 0x4000000000000) ∧
      (roundedMagnitude (params .w16) (.normal 1026 0x4000000000000)).mantissa ≠ 2 ^ 8 := by decide

/-- Below, in and above the range of the 16-bit exponent: 2^−34, −2^31 and 2^31. -/
theorem witness_ExponentSaturates :
    magnitude 0x3DD0000000000000 = some (.normal 989 0) ∧
      (normalizedResult (params .w16) false (.normal 989 0)).exponent = -33 ∧
      magnitude 0xC1E0000000000000 = some (.normal 1054 0) ∧
      (normalizedResult (params .w16) true (.normal 1054 0)).exponent = 31 ∧
      (normalizedResult (params .w16) false (.normal 1054 0)).exponent = 32 := by decide

theorem witness_IntermediateRanges : magnitude 0x7FEFFFFFFFFFFFFF = some (.normal 2046 0xFFFFFFFFFFFFF) := by decide

theorem witness_ResultLayouts :
    2 ^ 10 - 1 < 2 ^ (params .w16).mantissaBits ∧ 2 ^ 6 - 1 < 2 ^ (params .w16).exponentBits ∧
      2 ^ 24 - 1 < 2 ^ (params .w32).mantissaBits ∧ 2 ^ 40 - 1 < 2 ^ (params .w48).mantissaBits := by decide

theorem witness_ConversionIsExactEncoding : ∃ x, realValue 0x000FFFFFFFFFFFFF = some x := ⟨_, rfl⟩

theorem witness_SuccessfulResultsNormalized :
    (encode1750 0xBFE0000000000000 (widthCode .w48)).status = .ok ∧ realValue 0xBFE0000000000000 ≠ some 0 := by
  refine ⟨by decide, fun h => ?_⟩
  have hm : magnitude 0xBFE0000000000000 = some (.normal 1022 0) := by decide
  have hs : signBit 0xBFE0000000000000 = true := by decide
  rw [realValue, hm, hs] at h
  norm_num [magnitudeValue] at h

/-- In range (2^126) and out of range (2^200), in the 32-bit format. -/
theorem witness_AccuracyLaw :
    (∃ x, realValue 0x47D0000000000000 = some x) ∧ magnitude 0x47D0000000000000 = some (.normal 1149 0) ∧
      (normalizedResult (params .w32) false (.normal 1149 0)).exponent = 127 ∧
      (∃ x, realValue 0x4C70000000000000 = some x) ∧ magnitude 0x4C70000000000000 = some (.normal 1223 0) ∧
      (normalizedResult (params .w32) false (.normal 1223 0)).exponent = 201 :=
  ⟨⟨_, rfl⟩, by decide, by decide, ⟨_, rfl⟩, by decide, by decide⟩

/-- The zero word, and normalized words of either sign. -/
theorem witness_RoundTripLaw :
    0 < 2 ^ (params .w16).mantissaBits ∧ 0 < 2 ^ (params .w16).exponentBits ∧ Normalized .w16 0x1FF ∧
      Normalized .w16 0x200 ∧ ¬Normalized .w16 0 ∧ 0x1FF < 2 ^ (params .w16).mantissaBits := by
  unfold Normalized; decide

/-- A power of two and a value that is not one. -/
theorem witness_SignLaw :
    signBit 0x47E0000000000000 = false ∧ magnitude 0x47E0000000000000 = some (.normal 1150 0) ∧
      (∃ x, realValue 0x47E0000000000000 = some x) ∧
      (roundedMagnitude (params .w32) (.normal 1150 0)).mantissa = 2 ^ 22 ∧
      signBit 0x4024000000000000 = false ∧ magnitude 0x4024000000000000 = some (.normal 1026 0x4000000000000) ∧
      (∃ x, realValue 0x4024000000000000 = some x) ∧
      (roundedMagnitude (params .w32) (.normal 1026 0x4000000000000)).mantissa ≠ 2 ^ 22 :=
  ⟨by decide, by decide, ⟨_, rfl⟩, by decide, by decide, by decide, ⟨_, rfl⟩, by decide⟩

/-! ### Witnesses: the operations -/

/-- An empty `Q` and ports outside reset: ready, whatever DEPTH is. -/
def readyState : State := inCycle [] (asking 0x20 0x4024000000000000 true)

theorem readyState_ready : readyState.inReady Config.timing = true := by decide

/-- A full `Q`. -/
def fullState : State := inCycle (List.replicate Config.depth ⟨rspA, 1⟩) (asking 0x20 0x4024000000000000 true)

theorem fullState_not_ready : fullState.inputs.rst = false ∧ fullState.inReady Config.timing = false := by
  refine ⟨rfl, ?_⟩
  simp [State.inReady, fullState, inCycle, Config.timing]

theorem witness_Enc16Completes :
    readyState.inReady Config.timing = true ∧ biasedExponent 0x7FF0000000000000 = 2047 ∧
      biasedExponent 0xBFE0000000000000 ≠ 2047 := by decide
theorem witness_Enc32Completes :
    readyState.inReady Config.timing = true ∧ biasedExponent 0xFFF0000000000000 = 2047 ∧
      biasedExponent 0x4024000000000000 ≠ 2047 := by decide
theorem witness_Enc48Completes :
    readyState.inReady Config.timing = true ∧ biasedExponent 0xFFFFFFFFFFFFFFFF = 2047 ∧
      biasedExponent 0x000FFFFFFFFFFFFF ≠ 2047 := by decide

theorem witness_OperationsWaitWhenNotReady :
    fullState.inputs.rst = false ∧ fullState.inReady Config.timing = false := fullState_not_ready

theorem witness_OperationsIgnoredInReset : (inCycle [⟨rspA, 1⟩] (quiet true true)).inputs.rst = true := by decide

theorem witness_OperationFrame :
    ∃ t, exec (.enc32 0x4024000000000000) readyState = .next t ∧ readyState.inputs.rst = false := ⟨_, rfl, rfl⟩

/-- Two ready states with different histories and one request. -/
theorem witness_ResponsesIndependentOfHistory :
    ∃ s u s' u' : State, s ≠ u ∧ s.inReady Config.timing = true ∧ u.inReady Config.timing = true ∧
      s.inputs.inValid = true ∧ u.inputs.inValid = true ∧ s.inputs.inValue = u.inputs.inValue ∧
      s.inputs.inWidth = u.inputs.inWidth ∧ step s = .next s' ∧ step u = .next u' :=
  ⟨readyState, { readyState with cycle := 9, delivered := [rspB, rspC] }, _, _, by decide, by decide, by decide, by decide,
    by decide, by decide, by decide, rfl, rfl⟩

/-! ### Witnesses: one cycle -/

theorem witness_StepRunsDecodedOperation :
    readyState.inputs.inValid = true ∧ decode (offeredWord readyState) = .ok (.enc32 0x4024000000000000) ∧
      (Instr.enc32 0x4024000000000000).wellFormed = true ∧
      (inCycle [] (asking 20 0 true)).inputs.inValid = true ∧
      decode (offeredWord (inCycle [] (asking 20 0 true))) = .error (.invalidWidth 20) ∧
      (inCycle [] (quiet false true)).inputs.inValid = false := by
  refine ⟨rfl, by rfl, rfl, rfl, by rfl, rfl⟩

/-- An offered response, and none, outside reset. -/
theorem witness_CycleFollowsEdgeRule :
    (inCycle [⟨rspA, Config.latency⟩] (asking 16 0 true)).inputs.rst = false ∧
      ((inCycle [⟨rspA, Config.latency⟩] (asking 16 0 true)).outputs Config.timing).outValid = true ∧
      (readyState.outputs Config.timing).outValid = false := by
  have hv : (inCycle [⟨rspA, Config.latency⟩] (asking 16 0 true)).outValid Config.timing = true := by
    rw [outValid_cons Config.timing _ (e := ⟨rspA, Config.latency⟩) (rest := []) rfl]
    simp [Config.timing]; rfl
  refine ⟨rfl, ?_, by decide⟩
  rw [outputs_offered Config.timing _ (e := ⟨rspA, Config.latency⟩) (rest := []) rfl hv]; rfl

/-- The widths next to the three valid ones, and the ends of the field. -/
theorem witness_OtherWidthsAnswered :
    ([0, 15, 17, 31, 33, 47, 49, 255] : List WidthCode).all (fun w =>
      let s := inCycle [] (asking w 0x3FF0000000000000 true)
      s.inReady Config.timing && s.inputs.inValid && s.inputs.inWidth.toNat != 16 && s.inputs.inWidth.toNat != 32 &&
        s.inputs.inWidth.toNat != 48) = true := by decide

theorem witness_OneEdgeResets : (inCycle [⟨rspA, 4⟩, ⟨rspB, 1⟩] (quiet true true)).inputs.rst = true := by decide

theorem witness_ResetLeavesEmptyQueue :
    (inCycle [] (quiet true true)).queue = [] ∧ (inCycle [] (quiet true true)).inputs.rst = true ∧
      (inCycle [] (quiet false true)).queue = [] ∧ (inCycle [] (quiet false true)).inputs.rst = false := by decide

/-- Not ready, with any request; and ready, with none. -/
theorem witness_UnacceptedRequestHasNoEffect :
    fullState.script = [asking 0x20 0x4024000000000000 true] ∧ (asking 48 7 true).rst = false ∧
      (asking 48 7 true).outReady = true ∧ fullState.inReady Config.timing = false ∧
      (inCycle [] (quiet false true)).script = [quiet false true] ∧
      ({ quiet false true with inValue := 7 } : Inputs).inValid = false :=
  ⟨rfl, rfl, rfl, fullState_not_ready.2, rfl, rfl⟩

theorem witness_OfferedResponseHeld :
    ∃ s t : State, s.outValid Config.timing = true ∧ s.inputs.outReady = false ∧ step s = .next t ∧ t.inputs.rst = false := by
  refine ⟨{ queue := [⟨rspA, Config.latency⟩], script := [quiet false false, quiet false true], cycle := 0, delivered := [] },
    _, ?_, rfl, rfl, ?_⟩
  · rw [outValid_cons Config.timing _ (e := ⟨rspA, Config.latency⟩) (rest := []) rfl]
    simp [Config.timing]; rfl
  · exact congrArg Inputs.rst (inputs_of_script _ (i := quiet false true) (rest := []) (by simp [idleEdge]))

/-! ### Witnesses: runs -/

theorem witness_StepKeepsInvariant : ∃ s t : State, s.Inv ∧ step s = .next t :=
  ⟨readyState, _, ⟨by simp [readyState, inCycle], List.Pairwise.nil, by simp [readyState, inCycle],
    by simp [readyState, inCycle], by simp [readyState, inCycle]⟩, rfl⟩

/-- `n` cycles of the same ports. -/
def steady (n : Nat) (i : Inputs) : State := { queue := [], script := List.replicate n i, cycle := 0, delivered := [] }

theorem steady_inputsAt {n k : Nat} (i : Inputs) (h : k < n) : (steady n i).inputsAt k = i := by
  simp [State.inputsAt, steady, h]

theorem witness_ResponsesInOrderExactlyOnce :
    ∀ k < 3, ((steady 3 (asking 16 0 true)).inputsAt k).rst = false := fun k hk => by rw [steady_inputsAt _ hk]; rfl

theorem witness_ResetDropsInFlight :
    ∃ s : State, s.queue ≠ [] ∧ s.inputs.rst = true ∧ ∀ k < 2, (s.inputsAt (k + 1)).rst = false :=
  ⟨{ queue := [⟨rspA, 1⟩], script := [quiet true false, quiet false false, quiet false false], cycle := 0, delivered := [] },
    by decide, by decide, by decide⟩

/-- A request accepted into an empty `Q` and not taken: still the oldest entry LATENCY edges later. -/
theorem witness_OfferedFromLatency :
    ∃ (s : State) (k : Nat), s.inputs.inValid = true ∧ s.inReady Config.timing = true ∧
      (∀ j ≤ k + 1, (s.inputsAt j).rst = false) ∧
      (stateAfter (k + 1) s).delivered.length = s.delivered.length + s.queue.length ∧ Config.latency ≤ k + 1 := by
  have hin : (steady (Config.latencyPred + 2) (asking 16 0 false)).inputs = asking 16 0 false :=
    steady_inputsAt _ (by omega)
  refine ⟨steady (Config.latencyPred + 2) (asking 16 0 false), Config.latencyPred, ?_, ?_, ?_, ?_, Nat.le_refl _⟩
  · rw [hin]; rfl
  · rw [inReady_iff, hin]; exact ⟨rfl, Nat.succ_pos _⟩
  · intro j hj; rw [steady_inputsAt _ (by omega)]; rfl
  · rw [stateAfter_delivered_of_not_ready _ _ fun k hk => by rw [steady_inputsAt _ (by omega)]; rfl]
    rfl

theorem witness_TransferredAtLatency :
    (steady (Config.latency + 1) (asking 16 0 true)).queue = [] ∧
      (steady (Config.latency + 1) (asking 16 0 true)).inputs.inValid = true ∧
      ∀ k ≤ Config.latency, ((steady (Config.latency + 1) (asking 16 0 true)).inputsAt k).rst = false ∧
        ((steady (Config.latency + 1) (asking 16 0 true)).inputsAt k).outReady = true := by
  refine ⟨rfl, ?_, fun k hk => ?_⟩
  · rw [State.inputs, steady_inputsAt _ (by omega)]; rfl
  · rw [steady_inputsAt _ (by omega)]; exact ⟨rfl, rfl⟩

theorem witness_BackPressureFillsAndHolds :
    (steady (Config.depth + 1) (asking 48 0 false)).queue.length ≤ Config.depth ∧
      (∀ k < Config.depth + 1, ((steady (Config.depth + 1) (asking 48 0 false)).inputsAt k).rst = false ∧
        ((steady (Config.depth + 1) (asking 48 0 false)).inputsAt k).outReady = false ∧
        ((steady (Config.depth + 1) (asking 48 0 false)).inputsAt k).inValid = true) ∧
      Config.depth ≤ (steady (Config.depth + 1) (asking 48 0 false)).queue.length + (Config.depth + 1) := by
  refine ⟨Nat.zero_le _, fun k hk => ?_, by omega⟩
  rw [steady_inputsAt _ hk]; exact ⟨rfl, rfl, rfl⟩

/-- DEPTH = LATENCY + 1, and DEPTH = LATENCY with enough cycles. -/
theorem witness_OneRequestPerCycle :
    Timing.Legal { latency := 2, depth := 3 } ∧ Timing.Legal timingP4 ∧ (steady 4 (asking 32 1 true)).queue = [] ∧
      (∀ k ≤ 3, ((steady 4 (asking 32 1 true)).inputsAt k).rst = false ∧
        ((steady 4 (asking 32 1 true)).inputsAt k).outReady = true ∧
        ((steady 4 (asking 32 1 true)).inputsAt k).inValid = true) ∧
      timingP4.depth ≤ timingP4.latency ∧ timingP4.depth ≤ 3 := by
  refine ⟨by simp [Timing.Legal], by simp [Timing.Legal, timingP4], rfl, fun k hk => ?_, by decide, by decide⟩
  rw [steady_inputsAt _ (by omega)]; exact ⟨rfl, rfl, rfl⟩

/-- ENC32 10.0 and then a request with width 20, with LATENCY = DEPTH = 2: accepted, offered and taken in four cycles. -/
theorem witness_ProgramEndState :
    Timing.Legal timingP4 ∧
      (runProgram timingP4 [true, true, true, true] [⟨0x20, 0x4024000000000000⟩, ⟨20, 0⟩] State.reset).1 = [] ∧
      (runProgram timingP4 [true, true, true, true] [⟨0x20, 0x4024000000000000⟩, ⟨20, 0⟩] State.reset).2.queue = [] ∧
      (runProgram timingP4 [true, true, true, true] [⟨0x20, 0x4024000000000000⟩, ⟨20, 0⟩] State.reset).2.delivered =
        [rspA, rspC] := by
  refine ⟨by simp [Timing.Legal, timingP4], by decide, by decide, by decide⟩

end Sys2Proof.Machine.Tests
end

/-! 00_scope.md rule R14: `sext_N` by the two halves of the N-bit field, `tc_N` by the sign of the integer, and
O6 from these. -/

namespace Sys2Proof.Machine

/-! ### `sext_N` on the lower and the upper half of the N-bit field -/

theorem sext_of_lt {n v : Nat} (h : v < 2 ^ (n - 1)) : sext n v = v := by
  simp [sext, Nat.testBit_eq_false_of_lt h]

theorem sext_of_le {n v : Nat} (hn : 1 ≤ n) (hlo : 2 ^ (n - 1) ≤ v) (hhi : v < 2 ^ n) :
    sext n v = v - 2 ^ n := by
  have htop : v.testBit (n - 1) = true :=
    Nat.testBit_of_two_pow_le_and_two_pow_add_one_gt hlo (by rwa [Nat.sub_add_cancel hn])
  simp [sext, htop]

theorem sext_mem_range {n v : Nat} (hn : 1 ≤ n) (hv : v < 2 ^ n) :
    -2 ^ (n - 1) ≤ sext n v ∧ sext n v < 2 ^ (n - 1) := by
  have hpow : (2 : Int) ^ n = 2 * 2 ^ (n - 1) := (mul_pow_sub_one (by omega) 2).symm
  have hvi : (v : Int) < 2 ^ n := mod_cast hv
  rcases lt_or_ge v (2 ^ (n - 1)) with hlt | hge
  · have hlti : (v : Int) < 2 ^ (n - 1) := mod_cast hlt
    rw [sext_of_lt hlt]
    omega
  · have hgei : (2 : Int) ^ (n - 1) ≤ v := mod_cast hge
    rw [sext_of_le hn hge hv]
    omega

/-- Sign extension changes a field by a multiple of `2^N` only, and that is all that `tc_N` discards. -/
theorem sext_emod (n v : Nat) : sext n v % 2 ^ n = v % 2 ^ n := by
  unfold sext
  split
  · exact Int.sub_emod_right _ _
  · rfl

/-! ### `tc_N` on the non-negative and the negative integers -/

theorem tc_of_nonneg {n : Nat} {i : Int} (h0 : 0 ≤ i) (hi : i < 2 ^ n) : (tc n i : Int) = i := by
  rw [tc, Int.emod_eq_of_lt h0 hi, Int.toNat_of_nonneg h0]

theorem tc_add_two_pow (n : Nat) (i : Int) : tc n (i + 2 ^ n) = tc n i := by
  rw [tc, tc, Int.add_emod_right]

theorem tc_of_neg {n : Nat} {i : Int} (hi : -2 ^ n ≤ i) (h0 : i < 0) : (tc n i : Int) = i + 2 ^ n := by
  rw [← tc_add_two_pow, tc_of_nonneg (by omega) (by omega)]

/-! ### The two compositions -/

theorem tc_sext {n v : Nat} (hv : v < 2 ^ n) : tc n (sext n v) = v := by
  rw [tc, sext_emod, Int.emod_eq_of_lt (Int.natCast_nonneg v) (mod_cast hv), Int.toNat_natCast]

theorem sext_tc {n : Nat} {i : Int} (hn : 1 ≤ n) (hlo : -2 ^ (n - 1) ≤ i) (hhi : i < 2 ^ (n - 1)) :
    sext n (tc n i) = i := by
  have hpow : (2 : Int) ^ n = 2 * 2 ^ (n - 1) := (mul_pow_sub_one (by omega) 2).symm
  rcases lt_or_ge i 0 with hneg | hnonneg
  · have htc : (tc n i : Int) = i + 2 ^ n := tc_of_neg (by omega) hneg
    have hupper : 2 ^ (n - 1) ≤ tc n i := by zify; omega
    have hfield : tc n i < 2 ^ n := by zify; omega
    rw [sext_of_le hn hupper hfield, htc, Int.add_sub_cancel]
  · have htc : (tc n i : Int) = i := tc_of_nonneg hnonneg (by omega)
    have hlower : tc n i < 2 ^ (n - 1) := by zify; omega
    rw [sext_of_lt hlower, htc]

/-- Settles O6, by the half of the field that the sign of the integer selects. -/
theorem signExtensionInvertsTwosComplement : Obligations.SignExtensionInvertsTwosComplement :=
  fun _ hn => ⟨fun _ hlo hhi => sext_tc hn hlo hhi, fun _ hv => ⟨tc_sext hv, sext_mem_range hn hv⟩⟩

end Sys2Proof.Machine

/-! The rising edge as the later sections use it: a step is `cycleEdge` of the block's own parameters, an edge outside
reset loses no response and adds at most one, and O32, O38 and O42 from these (10_state.md rules R23 and R25). -/

namespace Sys2Proof.Machine

/-! ### Ready with an empty queue -/

theorem inReady_nil {c : Timing} (hc : c.Legal) {s : State} (hq : s.queue = []) :
    s.inReady c = !s.inputs.rst := by
  have hdepth : 0 < c.depth := hc.2
  simp [State.inReady, hq, hdepth]

theorem config_timing_legal : Config.timing.Legal :=
  ⟨Nat.succ_pos Config.latencyPred, Nat.succ_pos Config.depthPred⟩

theorem outputs_nil (c : Timing) {s : State} (hq : s.queue = []) :
    s.outputs c = freeOutputs (s.inReady c) s.cycle :=
  outputs_free c s (outValid_nil c s hq)

/-- Settles O38. -/
theorem resetLeavesEmptyQueue : Obligations.ResetLeavesEmptyQueue := by
  refine ⟨rfl, rfl, fun s hq => ?_⟩
  rw [outputs_nil _ hq, inReady_nil config_timing_legal hq]
  refine ⟨rfl, fun hrst => ?_, fun hrst => ?_⟩ <;> simp [freeOutputs, hrst]

theorem State.inv_of_queue_nil {s : State} (hq : s.queue = []) (htaken : ∀ r ∈ s.delivered, r.Legal) : s.Inv where
  bounded := by simp [hq]
  ordered := by simp [hq]
  counted := by simp [hq]
  queued := by simp [hq]
  taken := htaken

/-- Settles O42. -/
theorem resetMeetsInvariant : Obligations.ResetMeetsInvariant :=
  State.inv_of_queue_nil rfl fun _ hr => absurd hr List.not_mem_nil

/-! ### A step is the edge of rule R85 -/

/-- The response of the request on the ports, if there is one. -/
def offeredResponse (s : State) : Option Response :=
  if s.inputs.inValid then some (encode1750 s.inputs.inValue s.inputs.inWidth) else none

theorem cycleEdge_eq (c : Timing) (s : State) : cycleEdge c s = clockEdge c (offeredResponse s) s := rfl

theorem encode_eq_requestWord (i : Instr) : encode i = requestWord (widthCode i.format) i.operand := by
  cases i <;> rfl

theorem decode_encode (i : Instr) : decode (encode i) = .ok i := by
  cases i <;> simp [decode, encode, formatOfWidth]

theorem exists_instr (f : Format) (v : Binary64) : ∃ i : Instr, i.format = f ∧ i.operand = v := by
  cases f
  · exact ⟨.enc16 v, rfl, rfl⟩
  · exact ⟨.enc32 v, rfl, rfl⟩
  · exact ⟨.enc48 v, rfl, rfl⟩

theorem decode_requestWord_of_no_format {w : WidthCode} (hw : formatOfWidth w = none) (v : Binary64) :
    decode (requestWord w v) = .error (.invalidWidth w) := by
  simp [decode, hw]

/-- Decoding before the edge makes no difference: the step answers whatever the ports ask. -/
theorem step_eq_cycleEdge (s : State) : step s = .next (cycleEdge Config.timing s) := by
  rw [cycleEdge_eq, step, offeredResponse]
  by_cases hv : s.inputs.inValid = true
  · rw [if_pos hv, if_pos hv, offeredWord]
    cases hf : formatOfWidth s.inputs.inWidth with
    | none => rw [decode_requestWord_of_no_format hf, encode1750_none _ hf]; rfl
    | some f =>
      obtain ⟨i, rfl, hoperand⟩ := exists_instr f s.inputs.inValue
      rw [(formatOfWidth_eq_some _ _).mp hf, ← hoperand, ← encode_eq_requestWord, decode_encode]
      exact exec_is_edge i s
  · rw [if_neg hv, if_neg hv, idleEdge]

theorem eq_cycleEdge_of_step {s t : State} (h : step s = .next t) : t = cycleEdge Config.timing s := by
  rw [step_eq_cycleEdge] at h
  exact (Host.Outcome.next.inj h).symm

/-! ### What an edge outside reset does to the responses -/

/-- The transfer moves a response and loses none. -/
theorem transferStep_conserves (c : Timing) (s : State) :
    (transferStep c s).delivered ++ (transferStep c s).queue.map Entry.rsp = s.delivered ++ s.queue.map Entry.rsp := by
  rw [transferStep_delivered, transferStep_queue]
  split
  · rw [List.append_assoc, ← List.map_append, ← List.drop_one, List.take_append_drop]
  · rw [List.append_nil]

theorem ageStep_rsp (s : State) : (ageStep s).queue.map Entry.rsp = s.queue.map Entry.rsp := by
  simp [Function.comp_def]

/-- The responses taken and queued after an edge are those before it, then the one accepted. -/
theorem clockEdge_conserves (c : Timing) (offer : Option Response) (s : State) (hrst : s.inputs.rst = false) :
    (clockEdge c offer s).delivered ++ (clockEdge c offer s).queue.map Entry.rsp =
      s.delivered ++ s.queue.map Entry.rsp ++ if s.inReady c then offer.toList else [] := by
  simp only [clockEdge, hrst, Bool.false_eq_true, if_false, nextCycle_delivered, nextCycle_queue, acceptStep_delivered,
    acceptStep_queue, ageStep_delivered, List.map_append, ageStep_rsp, List.map_map, ← List.append_assoc,
    transferStep_conserves]
  simp [Function.comp_def]

/-- A request accepted at the edge stands last in the queue, with its first edge counted. -/
theorem clockEdge_getLast_of_ready {c : Timing} {s : State} (hready : s.inReady c = true) (r : Response) :
    (clockEdge c (some r) s).queue.getLast? = some { rsp := r, age := 1 } := by
  rw [clockEdge_queue c _ s ((inReady_iff c s).mp hready).1, hready]
  exact List.getLast?_concat

theorem step_getLast_of_ready {s t : State} (hready : s.inReady Config.timing = true) (hvalid : s.inputs.inValid = true)
    (hstep : step s = .next t) :
    t.queue.getLast? = some { rsp := encode1750 s.inputs.inValue s.inputs.inWidth, age := 1 } := by
  rw [eq_cycleEdge_of_step hstep, cycleEdge_eq, offeredResponse, if_pos hvalid]
  exact clockEdge_getLast_of_ready hready _

/-- Settles O32: the entry a ready step appends names the request's fields and nothing of the state. -/
theorem responsesIndependentOfHistory : Obligations.ResponsesIndependentOfHistory := by
  intro s u s' u' hs hu hsv huv hvalue hwidth hs' hu'
  have hlast := step_getLast_of_ready hs hsv hs'
  refine ⟨?_, hlast⟩
  rw [hlast, step_getLast_of_ready hu huv hu', hvalue, hwidth]

end Sys2Proof.Machine

/-! The mantissa of a finite non-zero operand, through the steps of `Encode1750`: N bits after scaling, N − 1 after
rounding, and normalized with the operand's sign at the end (40_encode.md rules R51, R53, R55, R57 and R66). -/

namespace Sys2Proof.Machine

/-! ### Scaling: exactly N bits -/

/-- Dropping the low bits of a number of `b` bits leaves its top `n`. -/
theorem shiftRight_range {x b n : Nat} (hn : 1 ≤ n) (hnb : n ≤ b) (hlo : 2 ^ (b - 1) ≤ x) (hhi : x < 2 ^ b) :
    2 ^ (n - 1) ≤ x >>> (b - n) ∧ x >>> (b - n) < 2 ^ n := by
  have hpos : 0 < 2 ^ (b - n) := Nat.two_pow_pos _
  rw [Nat.shiftRight_eq_div_pow, Nat.le_div_iff_mul_le hpos, Nat.div_lt_iff_lt_mul hpos, ← pow_add, ← pow_add]
  exact ⟨by rwa [show n - 1 + (b - n) = b - 1 by omega], by rwa [show n + (b - n) = b by omega]⟩

/-- Padding a number of `b` bits with zeros to `n` bits. -/
theorem shiftLeft_range {x b n : Nat} (hb : 1 ≤ b) (hbn : b ≤ n) (hlo : 2 ^ (b - 1) ≤ x) (hhi : x < 2 ^ b) :
    2 ^ (n - 1) ≤ x <<< (n - b) ∧ x <<< (n - b) < 2 ^ n := by
  have hpos : 0 < 2 ^ (n - b) := Nat.two_pow_pos _
  rw [Nat.shiftLeft_eq, show n - 1 = b - 1 + (n - b) by omega, show 2 ^ n = 2 ^ b * 2 ^ (n - b) by
    rw [← pow_add]; congr 1; omega, pow_add]
  exact ⟨Nat.mul_le_mul_right _ hlo, Nat.mul_lt_mul_of_pos_right hhi hpos⟩

theorem rawMantissa_subnormal_range {n fr : Nat} (hn : 1 ≤ n) (hfr : fr ≠ 0) :
    2 ^ (n - 1) ≤ rawMantissa n (.subnormal fr) ∧ rawMantissa n (.subnormal fr) < 2 ^ n := by
  obtain ⟨hlo, hhi⟩ := bitlen_spec hfr
  rw [rawMantissa]
  split
  · next hle => exact shiftLeft_range (Nat.succ_pos _) hle hlo hhi
  · next hgt => exact shiftRight_range hn (by omega) hlo hhi

theorem rawMantissa_normal_range {n fr : Nat} (be : Nat) (hn : 1 ≤ n) (hn53 : n ≤ 53) (hfr : fr < 2 ^ 52) :
    2 ^ (n - 1) ≤ rawMantissa n (.normal be fr) ∧ rawMantissa n (.normal be fr) < 2 ^ n :=
  shiftRight_range hn hn53 (by omega) (by omega)

theorem rawMantissa_range {n : Nat} (hn : 1 ≤ n) (hn53 : n ≤ 53) {v : Binary64} {mag : Magnitude}
    (hmag : magnitude v = some mag) (hne : mag ≠ .zero) :
    2 ^ (n - 1) ≤ rawMantissa n mag ∧ rawMantissa n mag < 2 ^ n := by
  obtain ⟨hzero, _⟩ | ⟨rfl, _, hfr⟩ | ⟨rfl, _⟩ := magnitude_cases v hmag
  · exact absurd hzero hne
  · exact rawMantissa_subnormal_range hn hfr
  · exact rawMantissa_normal_range _ hn hn53 (trailingSignificand_lt v)

/-! ### Rounding and renormalization: N − 1 bits -/

theorem roundHalfUp_range {n raw : Nat} (hn : 2 ≤ n) (hlo : 2 ^ (n - 1) ≤ raw) (hhi : raw < 2 ^ n) :
    2 ^ (n - 2) ≤ roundHalfUp raw ∧ roundHalfUp raw ≤ 2 ^ (n - 1) := by
  obtain ⟨k, rfl⟩ := Nat.exists_eq_add_of_le' hn
  simp only [Nat.add_sub_cancel, Nat.reduceSubDiff, pow_succ] at *
  rw [roundHalfUp, Nat.shiftRight_one]
  omega

theorem renormalize_range {n m0 : Nat} (hn : 2 ≤ n) (e : Int) (hlo : 2 ^ (n - 2) ≤ m0) (hhi : m0 ≤ 2 ^ (n - 1)) :
    2 ^ (n - 2) ≤ (renormalize n m0 e).mantissa ∧ (renormalize n m0 e).mantissa < 2 ^ (n - 1) := by
  rw [renormalize]
  split
  · exact ⟨le_rfl, Nat.pow_lt_pow_right (by omega) (by omega)⟩
  · next hcarry => exact ⟨hlo, lt_of_le_of_ne hhi hcarry⟩

theorem params_mantissaBits_range (f : Format) : 2 ≤ (params f).mantissaBits ∧ (params f).mantissaBits ≤ 53 := by
  cases f <;> decide

theorem roundedMagnitude_range (f : Format) {v : Binary64} {mag : Magnitude} (hmag : magnitude v = some mag)
    (hne : mag ≠ .zero) :
    2 ^ ((params f).mantissaBits - 2) ≤ (roundedMagnitude (params f) mag).mantissa ∧
      (roundedMagnitude (params f) mag).mantissa < 2 ^ ((params f).mantissaBits - 1) := by
  obtain ⟨hn, hn53⟩ := params_mantissaBits_range f
  obtain ⟨hraw, hraw'⟩ := rawMantissa_range (by omega) hn53 hmag hne
  obtain ⟨hround, hround'⟩ := roundHalfUp_range hn hraw hraw'
  exact renormalize_range hn _ hround hround'

/-! ### Sign and normalization: the two top bits -/

theorem applySign_false (n a : Nat) : applySign n false a = a := rfl

theorem applySign_true {n a : Nat} (hpos : 0 < a) (ha : a < 2 ^ n) : applySign n true a = 2 ^ n - a := by
  rw [applySign, if_pos rfl, complement, Nat.mod_eq_of_lt] <;> omega

/-- The two top bits of an N-bit field are its quarter of the range. -/
theorem top_bits_eq {n m : Nat} (hn : 2 ≤ n) :
    m.testBit (n - 1) = (m / 2 ^ (n - 2)).testBit 1 ∧ m.testBit (n - 2) = (m / 2 ^ (n - 2)).testBit 0 := by
  rw [← Nat.shiftRight_eq_div_pow, Nat.testBit_shiftRight, Nat.testBit_shiftRight]
  exact ⟨by congr 1; omega, rfl⟩

theorem top_bits_of_quarter {n m q : Nat} (hn : 2 ≤ n) (hlo : q * 2 ^ (n - 2) ≤ m) (hhi : m < (q + 1) * 2 ^ (n - 2)) :
    m.testBit (n - 1) = q.testBit 1 ∧ m.testBit (n - 2) = q.testBit 0 := by
  rw [← Nat.div_eq_of_lt_le hlo hhi]
  exact top_bits_eq hn

theorem two_pow_eq_quarters {n : Nat} (hn : 2 ≤ n) : 2 ^ n = 4 * 2 ^ (n - 2) ∧ 2 ^ (n - 1) = 2 * 2 ^ (n - 2) := by
  obtain ⟨k, rfl⟩ := Nat.exists_eq_add_of_le' hn
  simp only [Nat.add_sub_cancel, Nat.reduceSubDiff, pow_succ]
  omega

/-- Only a mantissa in the last quarter goes through the loop. -/
theorem normalizeLoop_of_quarter {n q : Nat} (fuel : Nat) (a : Scaled) (hn : 2 ≤ n)
    (hq : (q.testBit 1 && q.testBit 0) = false)
    (hlo : q * 2 ^ (n - 2) ≤ a.mantissa) (hhi : a.mantissa < (q + 1) * 2 ^ (n - 2)) : normalizeLoop n fuel a = a := by
  obtain ⟨htop, hnext⟩ := top_bits_of_quarter hn hlo hhi
  exact normalizeLoop_stop n fuel a (by rw [htop, hnext, hq])

/-- One iteration takes the least mantissa of the last quarter to the least of all. -/
theorem normalizeLoop_three_quarters {n : Nat} (fuel : Nat) (e : Int) (hn : 2 ≤ n) :
    normalizeLoop n (fuel + 1) { mantissa := 3 * 2 ^ (n - 2), exponent := e } =
      { mantissa := 2 ^ (n - 1), exponent := e - 1 } := by
  have hpos : 0 < 2 ^ (n - 2) := Nat.two_pow_pos _
  obtain ⟨hfull, hhalf⟩ := two_pow_eq_quarters hn
  obtain ⟨htop, hnext⟩ := top_bits_of_quarter (m := 3 * 2 ^ (n - 2)) (q := 3) hn le_rfl (by omega)
  have hshift : (3 * 2 ^ (n - 2)) <<< 1 % 2 ^ n = 2 ^ (n - 1) := by
    rw [Nat.shiftLeft_eq, pow_one, Nat.mul_right_comm, hfull, hhalf, Nat.mul_mod_mul_right]
  rw [normalizeLoop_succ, htop, hnext, if_pos (by decide), hshift]
  exact normalizeLoop_of_quarter (q := 2) fuel _ hn (by decide) (by simp [hhalf]) (by simp only; omega)

/-- The quarter of the N-bit range that holds the normalized mantissas of a sign. -/
def normalizedQuarter (negative : Bool) : Nat := if negative then 2 else 1

/-- Steps 6 and 7 on a magnitude of N − 1 bits: the power of two is the one that negation leaves unnormalized. -/
theorem normalizeLoop_applySign_quarter {n fuel a : Nat} (negative : Bool) (e : Int) (hn : 2 ≤ n) (hfuel : 1 ≤ fuel)
    (hlo : 2 ^ (n - 2) ≤ a) (hhi : a < 2 ^ (n - 1)) :
    normalizedQuarter negative * 2 ^ (n - 2) ≤
        (normalizeLoop n fuel { mantissa := applySign n negative a, exponent := e }).mantissa ∧
      (normalizeLoop n fuel { mantissa := applySign n negative a, exponent := e }).mantissa <
        (normalizedQuarter negative + 1) * 2 ^ (n - 2) := by
  have hpos : 0 < 2 ^ (n - 2) := Nat.two_pow_pos _
  obtain ⟨hfull, hhalf⟩ := two_pow_eq_quarters hn
  cases negative with
  | false =>
    have hquarter : 1 * 2 ^ (n - 2) ≤ a ∧ a < (1 + 1) * 2 ^ (n - 2) := by omega
    rw [applySign_false, normalizeLoop_of_quarter fuel _ hn (q := 1) rfl hquarter.1 hquarter.2]
    exact hquarter
  | true =>
    rw [applySign_true (by omega) (by omega)]
    rcases hlo.eq_or_lt with rfl | hgt
    · obtain ⟨fuel, rfl⟩ := Nat.exists_eq_add_of_le' hfuel
      rw [show 2 ^ n - 2 ^ (n - 2) = 3 * 2 ^ (n - 2) by omega, normalizeLoop_three_quarters fuel e hn, hhalf]
      exact ⟨le_rfl, Nat.mul_lt_mul_of_pos_right (by decide) hpos⟩
    · have hquarter : 2 * 2 ^ (n - 2) ≤ 2 ^ n - a ∧ 2 ^ n - a < (2 + 1) * 2 ^ (n - 2) := by omega
      rw [normalizeLoop_of_quarter fuel _ hn (q := 2) rfl hquarter.1 hquarter.2]
      exact hquarter

theorem normalizedResult_quarter (f : Format) (negative : Bool) {v : Binary64} {mag : Magnitude}
    (hmag : magnitude v = some mag) (hne : mag ≠ .zero) :
    let n := (params f).mantissaBits
    let m := (normalizedResult (params f) negative mag).mantissa
    normalizedQuarter negative * 2 ^ (n - 2) ≤ m ∧ m < (normalizedQuarter negative + 1) * 2 ^ (n - 2) := by
  obtain ⟨hn, _⟩ := params_mantissaBits_range f
  obtain ⟨hlo, hhi⟩ := roundedMagnitude_range f hmag hne
  exact normalizeLoop_applySign_quarter negative _ hn (by omega) hlo hhi

theorem normalizedResult_lt (f : Format) (negative : Bool) {v : Binary64} {mag : Magnitude}
    (hmag : magnitude v = some mag) (hne : mag ≠ .zero) :
    (normalizedResult (params f) negative mag).mantissa < 2 ^ (params f).mantissaBits := by
  obtain ⟨_, hhi⟩ := normalizedResult_quarter f negative hmag hne
  rw [(two_pow_eq_quarters (params_mantissaBits_range f).1).1]
  exact hhi.trans_le (Nat.mul_le_mul_right _ (by cases negative <;> decide))

/-- 40_encode.md rule R66: the top bit is the sign, and the next one is not. -/
theorem normalizedResult_top_bits (f : Format) (negative : Bool) {v : Binary64} {mag : Magnitude}
    (hmag : magnitude v = some mag) (hne : mag ≠ .zero) :
    let n := (params f).mantissaBits
    let m := (normalizedResult (params f) negative mag).mantissa
    m.testBit (n - 1) = negative ∧ m.testBit (n - 2) = !negative := by
  obtain ⟨hlo, hhi⟩ := normalizedResult_quarter f negative hmag hne
  obtain ⟨htop, hnext⟩ := top_bits_of_quarter (params_mantissaBits_range f).1 hlo hhi
  exact ⟨htop.trans (by cases negative <;> rfl), hnext.trans (by cases negative <;> rfl)⟩

end Sys2Proof.Machine

/-! The result word on the lanes of `out_data`: the word as one number, its fields read back, and no bit below it
(30_encoding.md rules R37 to R39; 20_memory.md rule R28). Every answer is legal (10_state.md rule R20). -/

namespace Sys2Proof.Machine

/-! ### The word of a result -/

theorem packBytes_length (f : Format) (m xf : Nat) : (packBytes f m xf).length = (params f).nbytes := by
  cases f <;> rfl

theorem byteAt_toNat (v hi : Nat) : (byteAt v hi).toNat = slice v hi (hi - 7) % 2 ^ 8 := BitVec.toNat_ofNat _ _

/-- The bytes of a result, read as one number: the layouts of 30_encoding.md rules R37, R38 and R39. -/
def packedWord (f : Format) (m xf : Nat) : Nat :=
  match f with
  | .w16 => m * 2 ^ 6 + xf
  | .w32 => m * 2 ^ 8 + xf
  | .w48 => m / 2 ^ 16 * 2 ^ 24 + xf * 2 ^ 16 + m % 2 ^ 16

theorem bigEndian_packBytes (f : Format) {m xf : Nat} (hm : m < 2 ^ (params f).mantissaBits)
    (hxf : xf < 2 ^ (params f).exponentBits) : bigEndian (packBytes f m xf) = packedWord f m xf := by
  cases f <;> simp only [params] at hm hxf <;>
    simp only [bigEndian, packBytes, packedWord, List.foldl, byteAt_toNat, BitVec.toNat_ofNat, slice_eq,
      Nat.shiftLeft_eq] <;>
    omega

theorem okResponse_data_toNat (f : Format) {m xf : Nat} (hm : m < 2 ^ (params f).mantissaBits)
    (hxf : xf < 2 ^ (params f).exponentBits) :
    (okResponse f m xf).data.toNat = packedWord f m xf * 2 ^ (48 - 8 * (params f).nbytes) := by
  rw [okResponse_data, placeBytes_toNat, packBytes_length, bigEndian_packBytes f hm hxf]
  cases f <;> simp only [params] at hm hxf <;> simp only [params, packedWord] <;> omega

/-! ### What a reader of the lanes gets back -/

theorem mantissaField_okResponse (f : Format) {m xf : Nat} (hm : m < 2 ^ (params f).mantissaBits)
    (hxf : xf < 2 ^ (params f).exponentBits) : mantissaField f (okResponse f m xf).data = m := by
  have hdata := okResponse_data_toNat f hm hxf
  cases f <;> simp only [params, packedWord] at hm hxf hdata <;>
    simp only [mantissaField, slice_eq, hdata, Nat.shiftLeft_eq] <;> omega

theorem exponentField_okResponse (f : Format) {m xf : Nat} (hm : m < 2 ^ (params f).mantissaBits)
    (hxf : xf < 2 ^ (params f).exponentBits) : exponentField f (okResponse f m xf).data = xf := by
  have hdata := okResponse_data_toNat f hm hxf
  cases f <;> simp only [params, packedWord] at hm hxf hdata <;>
    simp only [exponentField, slice_eq, hdata] <;> omega

theorem placeBytes_zero_below (bytes : List Byte) :
    (placeBytes bytes).toNat % 2 ^ (48 - 8 * bytes.length) = 0 := by
  rw [placeBytes_toNat, Nat.mod_mod_of_dvd _ (Nat.pow_dvd_pow 2 (Nat.sub_le _ _)), Nat.mul_mod_left]

theorem okResponse_zeroBelow (f : Format) (m xf : Nat) : ZeroBelow f (okResponse f m xf).data := by
  rw [ZeroBelow, okResponse_data, ← packBytes_length f m xf]
  exact placeBytes_zero_below _

theorem okResponse_nbytes_toNat (f : Format) (m xf : Nat) : (okResponse f m xf).nbytes.toNat = (params f).nbytes := by
  cases f <;> rfl

/-! ### Every answer is legal -/

theorem raiseError_legal (k : ErrorKind) : (raiseError k).Legal := by
  cases k <;> exact ⟨rfl, rfl⟩

theorem okResponse_legal {f : Format} {m xf : Nat}
    (h : Normalized f (mantissaField f (okResponse f m xf).data) ∨ (okResponse f m xf).data = 0) :
    (okResponse f m xf).Legal :=
  ⟨f, okResponse_nbytes_toNat f m xf, okResponse_zeroBelow f m xf, h⟩

theorem tc_lt (n : Nat) (i : Int) : tc n i < 2 ^ n := by
  have hpos : (0 : Int) < 2 ^ n := Int.pow_pos (by decide)
  have hlt := Int.emod_lt_of_pos i hpos
  have hnonneg := Int.emod_nonneg i hpos.ne'
  rw [tc]
  zify
  omega

/-- A zero operand of either sign gives the zero word (40_encode.md rule R61). -/
theorem encodeFinite_zero_data (f : Format) (negative : Bool) : (encodeFinite f negative .zero).data = 0 := by
  cases f <;> cases negative <;> decide

theorem mantissaField_encodeFinite (f : Format) (negative : Bool) {v : Binary64} {mag : Magnitude}
    (hmag : magnitude v = some mag) (hne : mag ≠ .zero) :
    mantissaField f (encodeFinite f negative mag).data = (normalizedResult (params f) negative mag).mantissa :=
  mantissaField_okResponse f (normalizedResult_lt f negative hmag hne) (tc_lt _ _)

theorem encodeFinite_normalized (f : Format) (negative : Bool) {v : Binary64} {mag : Magnitude}
    (hmag : magnitude v = some mag) (hne : mag ≠ .zero) :
    Normalized f (mantissaField f (encodeFinite f negative mag).data) := by
  obtain ⟨htop, hnext⟩ := normalizedResult_top_bits f negative hmag hne
  rw [Normalized, mantissaField_encodeFinite f negative hmag hne, htop, hnext]
  exact Bool.self_ne_not negative

theorem encodeFinite_legal (f : Format) (negative : Bool) {v : Binary64} {mag : Magnitude}
    (hmag : magnitude v = some mag) : (encodeFinite f negative mag).Legal := by
  by_cases hzero : mag = .zero
  · subst hzero
    exact okResponse_legal (.inr (encodeFinite_zero_data f negative))
  · exact okResponse_legal (.inl (encodeFinite_normalized f negative hmag hzero))

theorem encode1750_legal (v : Binary64) (w : WidthCode) : (encode1750 v w).Legal := by
  cases hf : formatOfWidth w with
  | none => rw [encode1750_none v hf]; exact raiseError_legal _
  | some f =>
    rw [(formatOfWidth_eq_some w f).mp hf]
    cases hmag : magnitude v with
    | none => rw [encode1750_nonfinite f hmag]; exact raiseError_legal _
    | some mag => rw [encode1750_finite f hmag]; exact encodeFinite_legal f _ hmag

end Sys2Proof.Machine

/-! The invariant of the machine along an edge (10_state.md rules R20 and R24): the ages of the queue, its bound, and the
responses, which an edge only moves; and O41 from these. -/

namespace Sys2Proof.Machine

/-! ### The ages in the queue -/

/-- Older entries first, no two of one age, each counted from its accepting edge. -/
def AgesFall (q : List Entry) : Prop :=
  (q.Pairwise fun older newer => newer.age < older.age) ∧ ∀ e ∈ q, 1 ≤ e.age

theorem AgesFall.sublist {p q : List Entry} (hq : AgesFall q) (hp : p.Sublist q) : AgesFall p :=
  ⟨hq.1.sublist hp, fun e he => hq.2 e (hp.subset he)⟩

theorem AgesFall.map_older {q : List Entry} (hq : AgesFall q) : AgesFall (q.map Entry.older) := by
  refine ⟨List.pairwise_map.mpr (hq.1.imp Nat.succ_lt_succ), fun e he => ?_⟩
  obtain ⟨e, _, rfl⟩ := List.mem_map.mp he
  exact Nat.succ_pos _

/-- The accepted entry is the newest, because the edge has aged all the others past 1. -/
theorem AgesFall.map_older_append_new {q : List Entry} (hq : AgesFall q) (r : Response) :
    AgesFall (q.map Entry.older ++ [{ rsp := r, age := 1 }]) := by
  obtain ⟨hordered, hcounted⟩ := hq.map_older
  refine ⟨List.pairwise_append.mpr ⟨hordered, List.pairwise_singleton _ _, fun e he new hnew => ?_⟩, fun e he => ?_⟩
  · obtain ⟨e, hqueued, rfl⟩ := List.mem_map.mp he
    rw [List.mem_singleton.mp hnew]
    exact Nat.succ_lt_succ (hq.2 e hqueued)
  · rcases List.mem_append.mp he with he | he
    · exact hcounted e he
    · rw [List.mem_singleton.mp he]

/-! ### The queue after an edge -/

theorem remaining_sublist (s : State) : (remaining s).Sublist s.queue := by
  rw [remaining]
  split
  · exact List.tail_sublist _
  · exact List.Sublist.refl _

/-- The remaining entries one edge older, and in a ready cycle with an offer, the new entry. -/
theorem clockEdge_queue_cases (offer : Option Response) {s : State} (hrst : s.inputs.rst = false) :
    (clockEdge Config.timing offer s).queue = (remaining s).map Entry.older ∨
      s.queue.length < Config.depth ∧
        ∃ r, (clockEdge Config.timing offer s).queue = (remaining s).map Entry.older ++ [{ rsp := r, age := 1 }] := by
  have hqueue : (clockEdge Config.timing offer s).queue = (remaining s).map Entry.older ++
      (if s.inReady Config.timing then offer.toList else []).map fun r => { rsp := r, age := 1 } :=
    clockEdge_queue _ _ s hrst
  cases hready : s.inReady Config.timing with
  | false => exact .inl (by simp [hqueue, hready])
  | true =>
    cases offer with
    | none => exact .inl (by simp [hqueue])
    | some r => exact .inr ⟨((inReady_iff _ s).mp hready).2, r, by simp [hqueue, hready]⟩

/-! ### The invariant -/

/-- The two clauses about responses, as one about the sequence that an edge conserves. -/
theorem State.inv_iff (s : State) :
    s.Inv ↔ s.queue.length ≤ Config.depth ∧ AgesFall s.queue ∧
      ∀ r ∈ s.delivered ++ s.queue.map Entry.rsp, r.Legal := by
  constructor
  · rintro ⟨hbounded, hordered, hcounted, hqueued, htaken⟩
    refine ⟨hbounded, ⟨hordered, hcounted⟩, fun r hr => ?_⟩
    rcases List.mem_append.mp hr with hr | hr
    · exact htaken r hr
    · obtain ⟨e, he, rfl⟩ := List.mem_map.mp hr
      exact hqueued e he
  · rintro ⟨hbounded, ⟨hordered, hcounted⟩, hlegal⟩
    exact ⟨hbounded, hordered, hcounted, fun e he => hlegal _ (List.mem_append_right _ (List.mem_map_of_mem he)),
      fun r hr => hlegal r (List.mem_append_left _ hr)⟩

theorem resetEdge_keeps_inv {s : State} (hs : s.Inv) : (resetEdge s).Inv := State.inv_of_queue_nil rfl hs.taken

theorem clockEdge_keeps_bound_and_ages (offer : Option Response) {s : State} (hrst : s.inputs.rst = false)
    (hbounded : s.queue.length ≤ Config.depth) (hages : AgesFall s.queue) :
    (clockEdge Config.timing offer s).queue.length ≤ Config.depth ∧
      AgesFall (clockEdge Config.timing offer s).queue := by
  have hremaining : AgesFall (remaining s) := hages.sublist (remaining_sublist s)
  have hlength : (remaining s).length ≤ s.queue.length := (remaining_sublist s).length_le
  rcases clockEdge_queue_cases offer hrst with hqueue | ⟨hroom, r, hqueue⟩
  · rw [hqueue, List.length_map]
    exact ⟨hlength.trans hbounded, hremaining.map_older⟩
  · rw [hqueue, List.length_append, List.length_map, List.length_singleton]
    exact ⟨hlength.trans_lt hroom, hremaining.map_older_append_new r⟩

theorem clockEdge_keeps_legal (c : Timing) {offer : Option Response} {s : State} (hrst : s.inputs.rst = false)
    (hoffer : ∀ r ∈ offer, r.Legal) (hs : ∀ r ∈ s.delivered ++ s.queue.map Entry.rsp, r.Legal) :
    ∀ r ∈ (clockEdge c offer s).delivered ++ (clockEdge c offer s).queue.map Entry.rsp, r.Legal := by
  intro r hr
  rw [clockEdge_conserves c offer s hrst] at hr
  rcases List.mem_append.mp hr with hr | hr
  · exact hs r hr
  · split at hr
    · exact hoffer r (Option.mem_toList.mp hr)
    · exact absurd hr List.not_mem_nil

theorem clockEdge_keeps_inv {offer : Option Response} {s : State} (hoffer : ∀ r ∈ offer, r.Legal) (hs : s.Inv) :
    (clockEdge Config.timing offer s).Inv := by
  cases hrst : s.inputs.rst with
  | true => rw [clockEdge_reset _ _ _ hrst]; exact resetEdge_keeps_inv hs
  | false =>
    obtain ⟨hbounded, hages, hlegal⟩ := s.inv_iff.mp hs
    obtain ⟨hbounded', hages'⟩ := clockEdge_keeps_bound_and_ages offer hrst hbounded hages
    exact (State.inv_iff _).mpr ⟨hbounded', hages', clockEdge_keeps_legal _ hrst hoffer hlegal⟩

theorem offeredResponse_legal (s : State) : ∀ r ∈ offeredResponse s, r.Legal := by
  intro r hr
  obtain ⟨_, hr⟩ := Option.ite_none_right_eq_some.mp hr
  rw [← Option.some.inj hr]
  exact encode1750_legal _ _

/-- Settles O41: the step is an edge, and what it offers is an answer. -/
theorem stepKeepsInvariant : Obligations.StepKeepsInvariant := by
  intro s t hs hstep
  rw [eq_cycleEdge_of_step hstep, cycleEdge_eq]
  exact clockEdge_keeps_inv (offeredResponse_legal s) hs

end Sys2Proof.Machine

/-! A program run by the requester of `runProgram` (10_state.md rule R17): one cycle of it conserves the answers still to
come, and under a consumer that always takes brings the end nearer; and O49 from these. -/

namespace Sys2Proof.Machine

/-! ### One cycle of a program -/

/-- The requests not yet accepted after a cycle. -/
def requestsLeft (c : Timing) (b : Bool) (reqs : List Request) (s : State) : List Request :=
  if (s.driven b reqs).inReady c then reqs.tail else reqs

/-- The state after a cycle. -/
def programCycle (c : Timing) (b : Bool) (reqs : List Request) (s : State) : State := cycleEdge c (s.driven b reqs)

theorem runProgram_cons (c : Timing) (b : Bool) (consumer : List Bool) (reqs : List Request) (s : State) :
    runProgram c (b :: consumer) reqs s = runProgram c consumer (requestsLeft c b reqs s) (programCycle c b reqs s) := rfl

theorem driven_rst (s : State) (b : Bool) (reqs : List Request) : (s.driven b reqs).inputs.rst = false := by simp

theorem driven_outReady (s : State) (b : Bool) (reqs : List Request) : (s.driven b reqs).inputs.outReady = b := by simp

theorem driven_inReady (c : Timing) (s : State) (b : Bool) (reqs : List Request) :
    (s.driven b reqs).inReady c = decide (s.queue.length < c.depth) := by
  rw [State.inReady, driven_rst]
  rfl

/-- The requester offers the answer of its first request. -/
theorem offeredResponse_driven (s : State) (b : Bool) (reqs : List Request) :
    offeredResponse (s.driven b reqs) = reqs.head?.map answer := by
  cases reqs <;> rfl

/-! ### The answers taken, queued and still to be asked for -/

theorem programCycle_conserves (c : Timing) (b : Bool) (reqs : List Request) (s : State) :
    (programCycle c b reqs s).delivered ++ (programCycle c b reqs s).queue.map Entry.rsp ++
        (requestsLeft c b reqs s).map answer =
      s.delivered ++ s.queue.map Entry.rsp ++ reqs.map answer := by
  rw [programCycle, cycleEdge_eq, clockEdge_conserves c _ _ (driven_rst s b reqs), offeredResponse_driven, requestsLeft,
    List.append_assoc]
  split
  · cases reqs <;> simp
  · simp

theorem runProgram_conserves (c : Timing) (consumer : List Bool) (reqs : List Request) (s : State) :
    (runProgram c consumer reqs s).2.delivered ++ (runProgram c consumer reqs s).2.queue.map Entry.rsp ++
        (runProgram c consumer reqs s).1.map answer =
      s.delivered ++ s.queue.map Entry.rsp ++ reqs.map answer := by
  induction consumer generalizing reqs s with
  | nil => rfl
  | cons b consumer ih => rw [runProgram_cons, ih, programCycle_conserves]

/-! ### Progress under a consumer that always takes -/

/-- The acceptances and transfers still to come. -/
def transfersLeft (reqs : List Request) (s : State) : Nat := 2 * reqs.length + s.queue.length

/-- The edges until the oldest entry is offered. -/
def edgesToOffer (c : Timing) (s : State) : Nat :=
  match s.queue with
  | [] => 0
  | e :: _ => c.latency - e.age

theorem edgesToOffer_cons (c : Timing) {s : State} {e : Entry} {rest : List Entry} (hq : s.queue = e :: rest) :
    edgesToOffer c s = c.latency - e.age := by
  simp [edgesToOffer, hq]

theorem programCycle_queue (c : Timing) (reqs : List Request) (s : State) :
    (programCycle c true reqs s).queue =
      (if (s.driven true reqs).outValid c then s.queue.tail else s.queue).map Entry.older ++
        (if (s.driven true reqs).inReady c then (reqs.head?.map answer).toList else []).map
          fun r => { rsp := r, age := 1 } := by
  rw [programCycle, cycleEdge_eq, clockEdge_queue c _ _ (driven_rst s true reqs), offeredResponse_driven, driven_outReady,
    Bool.and_true, driven_queue]

theorem programCycle_queue_length_le (c : Timing) (reqs : List Request) (s : State) :
    (programCycle c true reqs s).queue.length ≤ s.queue.length + 1 := by
  have hremaining : (if (s.driven true reqs).outValid c then s.queue.tail else s.queue).length ≤ s.queue.length := by
    split <;> simp
  have haccepted : (if (s.driven true reqs).inReady c then (reqs.head?.map answer).toList else []).length ≤ 1 := by
    split <;> cases reqs <;> simp
  rw [programCycle_queue, List.length_append, List.length_map, List.length_map]
  omega

/-- With no request to accept, or no room for one, a cycle only transfers and ages. -/
theorem programCycle_of_no_acceptance {c : Timing} {reqs : List Request} {s : State}
    (h : reqs = [] ∨ c.depth ≤ s.queue.length) :
    requestsLeft c true reqs s = reqs ∧ (programCycle c true reqs s).queue =
      (if (s.driven true reqs).outValid c then s.queue.tail else s.queue).map Entry.older := by
  rw [programCycle_queue, requestsLeft, driven_inReady]
  rcases h with rfl | hfull
  · simp
  · simp [hfull.not_gt]

/-- An accepted request becomes one queued entry, which counts for less. -/
theorem transfersLeft_lt_of_acceptance {c : Timing} {reqs : List Request} {s : State} (hreqs : reqs ≠ [])
    (hroom : s.queue.length < c.depth) :
    transfersLeft (requestsLeft c true reqs s) (programCycle c true reqs s) < transfersLeft reqs s := by
  have hqueue := programCycle_queue_length_le c reqs s
  have hleft : (requestsLeft c true reqs s).length = reqs.length - 1 := by
    simp [requestsLeft, driven_inReady, hroom]
  have hpos : 0 < reqs.length := List.length_pos_iff.mpr hreqs
  rw [transfersLeft, transfersLeft, hleft]
  omega

theorem programCycle_progress {c : Timing} (hc : c.Legal) {reqs : List Request} {s : State}
    (hleft : ¬(reqs = [] ∧ s.queue = [])) :
    Prod.Lex (· < ·) (· < ·)
      (transfersLeft (requestsLeft c true reqs s) (programCycle c true reqs s), edgesToOffer c (programCycle c true reqs s))
      (transfersLeft reqs s, edgesToOffer c s) := by
  by_cases haccepts : reqs ≠ [] ∧ s.queue.length < c.depth
  · exact Prod.Lex.left _ _ (transfersLeft_lt_of_acceptance haccepts.1 haccepts.2)
  · have hwaits : reqs = [] ∨ c.depth ≤ s.queue.length := by
      rwa [not_and_or, not_not, not_lt] at haccepts
    obtain ⟨hreqs, hqueue⟩ := programCycle_of_no_acceptance hwaits
    cases hq : s.queue with
    | nil =>
      rw [hq] at hwaits
      exact absurd ⟨hwaits.resolve_right (Nat.not_le.mpr hc.2), hq⟩ hleft
    | cons e rest =>
      rw [outValid_cons c (s.driven true reqs) hq, driven_rst, hq] at hqueue
      by_cases hoffered : c.latency ≤ e.age
      · apply Prod.Lex.left
        simp [transfersLeft, hreqs, hqueue, hq, hoffered]
      · have hqueue' : (programCycle c true reqs s).queue = e.older :: rest.map Entry.older := by
          simpa [hoffered] using hqueue
        have hsame : transfersLeft (requestsLeft c true reqs s) (programCycle c true reqs s) = transfersLeft reqs s := by
          simp [transfersLeft, hreqs, hqueue', hq]
        rw [hsame, edgesToOffer_cons c hqueue', edgesToOffer_cons c hq, older_age]
        exact Prod.Lex.right _ (by omega)

theorem runProgram_completes {c : Timing} (hc : c.Legal) (reqs : List Request) (s : State) :
    ∃ n, (runProgram c (List.replicate n true) reqs s).1 = [] ∧
      (runProgram c (List.replicate n true) reqs s).2.queue = [] := by
  by_cases hdone : reqs = [] ∧ s.queue = []
  · exact ⟨0, hdone⟩
  · obtain ⟨n, hn⟩ := runProgram_completes hc (requestsLeft c true reqs s) (programCycle c true reqs s)
    exact ⟨n + 1, hn⟩
termination_by (transfersLeft reqs s, edgesToOffer c s)
decreasing_by exact programCycle_progress hc hdone

/-- Settles O49: at the end nothing is queued or still to be asked for, so all the answers have been taken. -/
theorem programEndState : Obligations.ProgramEndState := by
  intro c reqs s hc hq hd
  refine ⟨fun consumer hreqs hqueue => ?_, runProgram_completes hc reqs s⟩
  have hconserved := runProgram_conserves c consumer reqs s
  simpa [hreqs, hqueue, hq, hd] using hconserved

end Sys2Proof.Machine

/-! What the edges of a run without reset do to the responses (20_memory.md rules R30 and R31): together the taken and the
queued ones only grow at the end, and each transfer moves one of them; O31 and O43 from these. -/

namespace Sys2Proof.Machine

/-! ### The frame of one edge -/

theorem taken_length (s : State) : (taken s).length = if transfers s then 1 else 0 := by
  rw [taken]
  split
  · next htransfer =>
    have hqueue : s.queue ≠ [] := fun hnil => by simp [transfers, outValid_nil _ s hnil] at htransfer
    rw [List.length_map, List.length_take, Nat.min_eq_left (List.length_pos_iff.mpr hqueue)]
  · rfl

theorem taken_length_le_one (s : State) : (taken s).length ≤ 1 := by
  rw [taken_length]
  split <;> decide

theorem clockEdge_delivered_eq_taken (offer : Option Response) {s : State} (hrst : s.inputs.rst = false) :
    (clockEdge Config.timing offer s).delivered = s.delivered ++ taken s :=
  clockEdge_delivered _ _ s hrst

theorem accepted_offer_length_le_one (ready : Bool) (offer : Option Response) :
    (if ready then offer.toList else []).length ≤ 1 := by
  split
  · exact Option.length_toList_le
  · exact Nat.zero_le 1

/-- The response taken and those still queued are those queued before, then the one accepted. -/
theorem taken_append_clockEdge_queue (offer : Option Response) {s : State} (hrst : s.inputs.rst = false) :
    taken s ++ (clockEdge Config.timing offer s).queue.map Entry.rsp =
      s.queue.map Entry.rsp ++ if s.inReady Config.timing then offer.toList else [] := by
  have hconserved := clockEdge_conserves Config.timing offer s hrst
  rw [clockEdge_delivered_eq_taken offer hrst, List.append_assoc, List.append_assoc] at hconserved
  exact List.append_cancel_left hconserved

/-- Settles O31: an operation is an edge, at which the consumer takes `taken s`. -/
theorem operationFrame : Obligations.OperationFrame := by
  intro i s t hexec hrst
  rw [exec_is_edge] at hexec
  obtain rfl := Host.Outcome.next.inj hexec
  exact ⟨⟨taken s, taken_length_le_one s, clockEdge_delivered_eq_taken _ hrst,
      _, accepted_offer_length_le_one _ _, taken_append_clockEdge_queue _ hrst⟩,
    clockEdge_script _ _ s, clockEdge_cycle _ _ s⟩

/-! ### Runs without reset -/

theorem nextState_eq_cycleEdge (s : State) : nextState s = cycleEdge Config.timing s := by
  rw [nextState, step_eq_cycleEdge]

theorem acceptedNow_answers (s : State) :
    (acceptedNow s).map answer = if s.inReady Config.timing then (offeredResponse s).toList else [] := by
  cases hvalid : s.inputs.inValid <;> cases hready : s.inReady Config.timing <;>
    simp [acceptedNow, offeredResponse, answer, hvalid, hready]

theorem nextState_conserves {s : State} (hrst : s.inputs.rst = false) :
    (nextState s).delivered ++ (nextState s).queue.map Entry.rsp =
      s.delivered ++ s.queue.map Entry.rsp ++ (acceptedNow s).map answer := by
  rw [nextState_eq_cycleEdge, cycleEdge_eq, clockEdge_conserves _ _ s hrst, acceptedNow_answers]

theorem nextState_delivered_length {s : State} (hrst : s.inputs.rst = false) :
    (nextState s).delivered.length = s.delivered.length + if transfers s then 1 else 0 := by
  rw [nextState_eq_cycleEdge, cycleEdge_eq, clockEdge_delivered_eq_taken _ hrst, List.length_append, taken_length]

/-- Reset stays away from the run that is left after its first edge. -/
theorem nextState_no_reset {n : Nat} {s : State} (hrst : ∀ k < n + 1, (s.inputsAt k).rst = false) :
    ∀ k < n, ((nextState s).inputsAt k).rst = false := fun k hk => by
  rw [nextState_inputsAt]
  exact hrst (k + 1) (Nat.succ_lt_succ hk)

theorem stateAfter_conserves (n : Nat) {s : State} (hrst : ∀ k < n, (s.inputsAt k).rst = false) :
    (stateAfter n s).delivered ++ (stateAfter n s).queue.map Entry.rsp =
      s.delivered ++ (s.queue.map Entry.rsp ++ (acceptedIn n s).map answer) := by
  induction n generalizing s with
  | zero => simp [stateAfter, acceptedIn]
  | succ n ih =>
    have hnow : s.inputs.rst = false := hrst 0 (Nat.succ_pos n)
    rw [stateAfter, ih (nextState_no_reset hrst), acceptedIn, List.map_append, ← List.append_assoc,
      nextState_conserves hnow]
    simp only [List.append_assoc]

theorem stateAfter_delivered_length (n : Nat) {s : State} (hrst : ∀ k < n, (s.inputsAt k).rst = false) :
    (stateAfter n s).delivered.length = s.delivered.length + transferCount n s := by
  induction n generalizing s with
  | zero => rfl
  | succ n ih =>
    have hnow : s.inputs.rst = false := hrst 0 (Nat.succ_pos n)
    rw [stateAfter, ih (nextState_no_reset hrst), nextState_delivered_length hnow, transferCount, Nat.add_assoc]

/-- A cut of `past ++ future` at `c` past the end of `past`, by the length of its left part. -/
theorem eq_take_drop_of_append_eq {α : Type} {left right past future : List α} {c : Nat}
    (happend : left ++ right = past ++ future) (hlength : left.length = past.length + c) :
    left = past ++ future.take c ∧ right = future.drop c ∧ c ≤ future.length := by
  refine ⟨?_, ?_, ?_⟩
  · rw [← List.take_length_add_append, ← happend, ← hlength, List.take_left]
  · rw [← List.drop_length_add_append (l₁ := past), ← happend, ← hlength, List.drop_left]
  · have htotal := congrArg List.length happend
    rw [List.length_append, List.length_append] at htotal
    omega

/-- Settles O43: a run conserves the sequence of responses, and the number of transfers says where the taken ones end. -/
theorem responsesInOrderExactlyOnce : Obligations.ResponsesInOrderExactlyOnce := by
  intro n s hrst
  obtain ⟨htaken, hqueued, hcount⟩ :=
    eq_take_drop_of_append_eq (stateAfter_conserves n hrst) (stateAfter_delivered_length n hrst)
  exact ⟨htaken, hqueued, by simpa using hcount⟩

end Sys2Proof.Machine

/-! The byte lanes of `out_data` (20_memory.md rules R27 and R28), for any sequence of at most six bytes: which lane holds
which byte, and the lanes used as one number; and O18 from these. -/

namespace Sys2Proof.Machine

/-! ### A byte sequence as one number -/

theorem bigEndian_concat (bytes : List Byte) (b : Byte) : bigEndian (bytes ++ [b]) = bigEndian bytes * 2 ^ 8 + b.toNat := by
  simp [bigEndian, Nat.shiftLeft_eq]

theorem bigEndian_eq_foldl_mul (bytes : List Byte) :
    bigEndian bytes = bytes.foldl (fun acc b => acc * 256 + b.toNat) 0 := by
  simp [bigEndian, Nat.shiftLeft_eq]

theorem bigEndian_lt (bytes : List Byte) : bigEndian bytes < 2 ^ (8 * bytes.length) := by
  induction bytes using List.reverseRecOn with
  | nil => decide
  | append_singleton bytes b ih =>
    have hb : b.toNat < 2 ^ 8 := b.isLt
    rw [bigEndian_concat, List.length_append, List.length_singleton, Nat.mul_succ, Nat.pow_add]
    omega

/-- Byte i has as many bytes below it as follow it in the sequence. -/
theorem bigEndian_div_mod (bytes : List Byte) {i : Nat} (hi : i < bytes.length) :
    bigEndian bytes / 2 ^ (8 * (bytes.length - 1 - i)) % 2 ^ 8 = bytes[i].toNat := by
  induction bytes using List.reverseRecOn with
  | nil => exact absurd hi (Nat.not_lt_zero i)
  | append_singleton bytes b ih =>
    have hb : b.toNat < 2 ^ 8 := b.isLt
    rw [List.length_append, List.length_singleton] at hi
    rw [bigEndian_concat, List.length_append, List.length_singleton, Nat.add_sub_cancel]
    rcases Nat.lt_succ_iff_lt_or_eq.mp hi with hearlier | rfl
    · have hexp : 8 * (bytes.length - i) = 8 + 8 * (bytes.length - 1 - i) := by omega
      have hhigh : (bigEndian bytes * 2 ^ 8 + b.toNat) / 2 ^ 8 = bigEndian bytes := by omega
      rw [List.getElem_append_left hearlier, hexp, Nat.pow_add, ← Nat.div_div_eq_div_mul, hhigh, ih hearlier]
    · rw [List.getElem_concat_length rfl, Nat.sub_self, Nat.mul_zero, Nat.pow_zero, Nat.div_one]
      omega

/-! ### The lanes -/

/-- Six lanes are enough: nothing is cut off at the top. -/
theorem placeBytes_toNat_of_length_le {bytes : List Byte} (hlen : bytes.length ≤ 6) :
    (placeBytes bytes).toNat = bigEndian bytes * 2 ^ (48 - 8 * bytes.length) := by
  rw [placeBytes_toNat, Nat.mod_eq_of_lt]
  calc bigEndian bytes * 2 ^ (48 - 8 * bytes.length)
      < 2 ^ (8 * bytes.length) * 2 ^ (48 - 8 * bytes.length) :=
        Nat.mul_lt_mul_of_pos_right (bigEndian_lt bytes) (Nat.two_pow_pos _)
    _ = 2 ^ 48 := by rw [← Nat.pow_add]; congr 1; omega

theorem placeBytes_lane {bytes : List Byte} (hlen : bytes.length ≤ 6) {i : Nat} (hi : i < bytes.length) :
    (placeBytes bytes).extractLsb' (40 - 8 * i) 8 = bytes[i] := by
  have hlane : 40 - 8 * i = 48 - 8 * bytes.length + 8 * (bytes.length - 1 - i) := by omega
  apply BitVec.eq_of_toNat_eq
  rw [BitVec.extractLsb'_toNat, Nat.shiftRight_eq_div_pow, placeBytes_toNat_of_length_le hlen, hlane, Nat.pow_add,
    ← Nat.div_div_eq_div_mul, Nat.mul_div_cancel _ (Nat.two_pow_pos _), bigEndian_div_mod bytes hi]

theorem placeBytes_used_lanes {bytes : List Byte} (hlen : bytes.length ≤ 6) :
    (placeBytes bytes).toNat / 2 ^ (48 - 8 * bytes.length) = bigEndian bytes := by
  rw [placeBytes_toNat_of_length_le hlen, Nat.mul_div_cancel _ (Nat.two_pow_pos _)]

theorem packBytes_length_le (f : Format) (m xf : Nat) : (packBytes f m xf).length ≤ 6 := by
  rw [packBytes_length]
  cases f <;> decide

/-- Settles O18: a result has at most six bytes, one for each lane. -/
theorem byteLanesLeftJustified : Obligations.ByteLanesLeftJustified := by
  intro f m xf
  have hlen := packBytes_length_le f m xf
  refine ⟨packBytes_length f m xf, fun i hi => placeBytes_lane hlen hi, okResponse_zeroBelow f m xf, ?_⟩
  rw [okResponse_data, ← packBytes_length f m xf, placeBytes_used_lanes hlen, bigEndian_eq_foldl_mul]

end Sys2Proof.Machine

/-! Several units of the block (20_memory.md rule R32; 60_exceptions.md rule R81): the unit that an edge reaches, the
others, and O50 from the two. -/

namespace Sys2Proof.Machine

theorem edgeOfInstance_getElem?_same (k : Nat) (units : List Unit1750) :
    (edgeOfInstance k units)[k]? =
      units[k]?.map fun u => { timing := u.timing, state := cycleEdge u.timing u.state } :=
  List.getElem?_modify_eq _ _ _

theorem edgeOfInstance_getElem?_other {j k : Nat} (hj : j ≠ k) (units : List Unit1750) :
    (edgeOfInstance k units)[j]? = units[j]? :=
  List.getElem?_modify_ne _ _ hj.symm

/-- Settles O50. -/
theorem instancesIndependent : Obligations.InstancesIndependent := by
  intro k units j
  split
  · next hj => rw [hj, edgeOfInstance_getElem?_same]
  · next hj => exact edgeOfInstance_getElem?_other hj units

end Sys2Proof.Machine

/-! Request words and the step that runs them (30_encoding.md rules R35, R36, R44 and R45): every word is an operation's
or has a width that selects no format; O1, O33, O3 and O4 from this. -/

namespace Sys2Proof.Machine

/-! ### Decoding -/

theorem encode_or_no_format (w : RequestWord) : (∃ i, w = encode i) ∨ formatOfWidth (widthField w) = none := by
  cases hf : formatOfWidth (widthField w) with
  | none => exact .inr rfl
  | some f =>
    obtain ⟨i, hformat, hoperand⟩ := exists_instr f (valueField w)
    have hwidth : widthField w = widthCode f := (formatOfWidth_eq_some _ _).mp hf
    exact .inl ⟨i, by rw [encode_eq_requestWord, hformat, hoperand, ← hwidth, requestWord_fields]⟩

theorem decode_of_no_format {w : RequestWord} (hw : formatOfWidth (widthField w) = none) :
    decode w = .error (.invalidWidth (widthField w)) := by
  rw [decode, hw]

theorem decode_eq_ok_iff (w : RequestWord) (i : Instr) : decode w = .ok i ↔ w = encode i := by
  constructor
  · intro hdecode
    rcases encode_or_no_format w with ⟨j, rfl⟩ | hw
    · rw [decode_encode] at hdecode
      rw [Except.ok.inj hdecode]
    · rw [decode_of_no_format hw] at hdecode
      cases hdecode
  · rintro rfl
    exact decode_encode i

theorem decode_eq_error_iff (w : RequestWord) (c : WidthCode) :
    decode w = .error (.invalidWidth c) ↔ c = widthField w ∧ formatOfWidth c = none := by
  constructor
  · intro hdecode
    rcases encode_or_no_format w with ⟨i, rfl⟩ | hw
    · rw [decode_encode] at hdecode
      cases hdecode
    · rw [decode_of_no_format hw] at hdecode
      cases hdecode
      exact ⟨rfl, hw⟩
  · rintro ⟨rfl, hw⟩
    exact decode_of_no_format hw

theorem formatOfWidth_eq_none_iff_toNat (c : WidthCode) :
    formatOfWidth c = none ↔ c.toNat ≠ 16 ∧ c.toNat ≠ 32 ∧ c.toNat ≠ 48 := by
  rw [formatOfWidth_eq_none, ← BitVec.toNat_ne_iff_ne, ← BitVec.toNat_ne_iff_ne, ← BitVec.toNat_ne_iff_ne]
  rfl

/-- Settles O1: a word that is no operation's has a width that selects no format. -/
theorem decodeExactlyInvertsEncode : Obligations.DecodeExactlyInvertsEncode := by
  intro w
  refine ⟨decode_eq_ok_iff w, fun c => ?_⟩
  rw [decode_eq_error_iff, formatOfWidth_eq_none_iff_toNat]
  rfl

/-! ### The step by what the ports carry -/

theorem step_of_decode_ok {s : State} {i : Instr} (hvalid : s.inputs.inValid = true)
    (hdecode : decode (offeredWord s) = .ok i) : step s = exec i s := by
  rw [step, if_pos hvalid, hdecode]

theorem step_of_decode_error {s : State} {e : DecodeError} (hvalid : s.inputs.inValid = true)
    (hdecode : decode (offeredWord s) = .error e) :
    step s = .next (clockEdge Config.timing (some (raiseError .invalidWidth)) s) := by
  rw [step, if_pos hvalid, hdecode, answerInvalidWidth]

theorem step_of_no_request {s : State} (hvalid : s.inputs.inValid = false) :
    step s = .next (clockEdge Config.timing none s) := by
  rw [step, if_neg (by simp [hvalid]), idleEdge]

/-- Settles O33. -/
theorem stepRunsDecodedOperation : Obligations.StepRunsDecodedOperation := fun _ =>
  ⟨fun _ hvalid hdecode _ => step_of_decode_ok hvalid hdecode, fun _ hvalid hdecode => step_of_decode_error hvalid hdecode,
    step_of_no_request⟩

/-! ### A word placed on the ports -/

theorem tableWord_toNat (w : RequestWord) : tableWord 72 w.toNat = w := by
  rw [tableWord, Nat.mod_eq_of_lt w.isLt, BitVec.ofNat_toNat, BitVec.setWidth_eq]

theorem decodeTableWord_encode (i : Instr) : decodeTableWord 72 (encode i).toNat = some i := by
  rw [decodeTableWord, tableWord_toNat, decode_encode]

theorem offeredWord_withFetchWord (s : State) (nbits w : Nat) :
    offeredWord (s.withFetchWord nbits w) = tableWord nbits w := by
  rw [offeredWord, withFetchWord_inputs, requestWord_fields]

theorem decode_offeredWord_withFetchWord (i : Instr) (s : State) :
    decode (offeredWord (s.withFetchWord 72 (encode i).toNat)) = .ok i := by
  rw [offeredWord_withFetchWord, tableWord_toNat, decode_encode]

theorem withFetchWord_inReady {c : Timing} (hc : c.Legal) {s : State} (hq : s.queue = []) (nbits w : Nat) :
    (s.withFetchWord nbits w).inReady c = true := by
  rw [inReady_nil hc (by rw [withFetchWord_queue, hq]), withFetchWord_inputs, Bool.not_false]

/-- Settles O3: the word on the ports is the encoded one, and `withFetchWord` holds reset away. -/
theorem fetchedWordRuns : Obligations.FetchedWordRuns := fun i s =>
  ⟨decodeTableWord_encode i, step_of_decode_ok rfl (decode_offeredWord_withFetchWord i s),
    fun hq => withFetchWord_inReady config_timing_legal hq _ _⟩

/-! ### Assembler lines -/

theorem assemble_enc {w : Nat} {v : Literal} (hw : w < 256) (hv : v.wellFormed = true) :
    assemble (.enc w v) = some (requestWord (BitVec.ofNat 8 w) (literalBits v)) := by
  rw [assemble, if_pos (by simp [Asm.wellFormed, hw, hv])]

/-- A line whose width is in range is well-formed exactly when its operand is, in the general form as in the short one. -/
theorem enc_wellFormed {w : Nat} (hw : w < 256) (v : Literal) : (Asm.enc w v).wellFormed = v.wellFormed := by
  rw [Asm.wellFormed, decide_eq_true hw, Bool.true_and]

/-- Settles O4: a short form and its general form have one condition and one word. -/
theorem pseudoFormsExpand : Obligations.PseudoFormsExpand := by
  intro v
  refine ⟨?_, ?_, ?_, fun w hw hv => assemble_enc hw hv⟩
  all_goals
    rw [assemble, assemble, enc_wellFormed (by decide)]
    rfl

end Sys2Proof.Machine

/-! The operand (30_encoding.md rule R34): its five classes by the fields of the pattern, and the number that the patterns
of each finite class denote; O7 from these. -/

namespace Sys2Proof.Machine

/-! ### The classes -/

theorem classify_eq_zero_iff (v : Binary64) :
    classify v = .zero ↔ biasedExponent v = 0 ∧ trailingSignificand v = 0 := by
  unfold classify
  split_ifs <;> simp_all

theorem classify_eq_subnormal_iff (v : Binary64) :
    classify v = .subnormal ↔ biasedExponent v = 0 ∧ trailingSignificand v ≠ 0 := by
  unfold classify
  split_ifs <;> simp_all

theorem classify_eq_normal_iff (v : Binary64) :
    classify v = .normal ↔ 1 ≤ biasedExponent v ∧ biasedExponent v ≤ 2046 := by
  have hrange := biasedExponent_lt v
  unfold classify
  split_ifs <;> simp <;> omega

theorem classify_eq_infinity_iff (v : Binary64) :
    classify v = .infinity ↔ biasedExponent v = 2047 ∧ trailingSignificand v = 0 := by
  unfold classify
  split_ifs <;> simp_all

theorem classify_eq_nan_iff (v : Binary64) :
    classify v = .nan ↔ biasedExponent v = 2047 ∧ trailingSignificand v ≠ 0 := by
  unfold classify
  split_ifs <;> simp_all

/-! ### The numbers -/

theorem realValue_of_magnitude {v : Binary64} {mag : Magnitude} (hmag : magnitude v = some mag) :
    realValue v = some ((if signBit v then -1 else 1) * magnitudeValue mag) := by
  rw [realValue, hmag, Option.map_some]

theorem realValue_eq_none_iff (v : Binary64) : realValue v = none ↔ biasedExponent v = 2047 := by
  rw [realValue, Option.map_eq_none_iff, magnitude_eq_none]

/-- A zero fits the formula of the subnormal patterns. -/
theorem realValue_of_biasedExponent_zero {v : Binary64} (hbe : biasedExponent v = 0) :
    realValue v = some ((if signBit v then -1 else 1) * ((trailingSignificand v : ℚ) * 2 ^ (-1074 : ℤ))) := by
  by_cases hfr : trailingSignificand v = 0
  · have hclass : classify v = .zero := (classify_eq_zero_iff v).mpr ⟨hbe, hfr⟩
    have hmag : magnitude v = some .zero := by rw [magnitude, hclass]
    rw [realValue_of_magnitude hmag, hfr, magnitudeValue, Nat.cast_zero, zero_mul]
  · have hclass : classify v = .subnormal := (classify_eq_subnormal_iff v).mpr ⟨hbe, hfr⟩
    have hmag : magnitude v = some (.subnormal (trailingSignificand v)) := by rw [magnitude, hclass]
    rw [realValue_of_magnitude hmag, magnitudeValue]

theorem realValue_of_normal {v : Binary64} (hlo : 1 ≤ biasedExponent v) (hhi : biasedExponent v ≤ 2046) :
    realValue v = some ((if signBit v then -1 else 1) *
      ((2 ^ 52 + (trailingSignificand v : ℚ)) * 2 ^ ((biasedExponent v : ℤ) - 1075))) := by
  have hclass : classify v = .normal := (classify_eq_normal_iff v).mpr ⟨hlo, hhi⟩
  have hmag : magnitude v = some (.normal (biasedExponent v) (trailingSignificand v)) := by rw [magnitude, hclass]
  rw [realValue_of_magnitude hmag, magnitudeValue, Nat.cast_add, Nat.cast_pow, Nat.cast_ofNat]

/-- Settles O7. -/
theorem operandClassesDenote : Obligations.OperandClassesDenote := fun v =>
  ⟨classify_eq_zero_iff v, classify_eq_subnormal_iff v, classify_eq_normal_iff v, classify_eq_infinity_iff v,
    classify_eq_nan_iff v, realValue_eq_none_iff v, realValue_of_biasedExponent_zero, realValue_of_normal⟩

end Sys2Proof.Machine

/-! The bytes that a reader of the lanes gets back are the bytes packed (20_memory.md rule R29), and those of each format
as numbers (30_encoding.md rules R37, R38 and R39); O17 from these. -/

namespace Sys2Proof.Machine

theorem responseBytes_okResponse (f : Format) (m xf : Nat) :
    responseBytes (okResponse f m xf) = packBytes f m xf := by
  have hlen := packBytes_length f m xf
  apply List.ext_getElem
  · rw [responseBytes, List.length_map, List.length_range, okResponse_nbytes_toNat, hlen]
  · intro i _ hi
    simp only [responseBytes, List.getElem_map, List.getElem_range, okResponse_data]
    exact placeBytes_lane (packBytes_length_le f m xf) hi

theorem byteAt_toNat_eq (v : Nat) {hi : Nat} (hhi : 7 ≤ hi) : (byteAt v hi).toNat = v / 2 ^ (hi - 7) % 2 ^ 8 := by
  rw [byteAt_toNat, slice_eq, show hi + 1 - (hi - 7) = 8 by omega, Nat.mod_mod]

/-- The top byte of a number needs no cut. -/
theorem byteAt_toNat_top {v k : Nat} (hv : v < 2 ^ (k + 8)) : (byteAt v (k + 7)).toNat = v / 2 ^ k := by
  rw [byteAt_toNat_eq v (by omega), Nat.add_sub_cancel, Nat.mod_eq_of_lt]
  rwa [Nat.div_lt_iff_lt_mul (Nat.two_pow_pos k), ← Nat.pow_add, Nat.add_comm]

/-- The two fields share byte 1 of the 16-bit word (30_encoding.md rule R37). -/
theorem packBytes_w16_toNat {m xf : Nat} (hm : m < 2 ^ 10) (hxf : xf < 2 ^ 6) :
    (packBytes .w16 m xf).map BitVec.toNat = [m / 2 ^ 2, m % 2 ^ 2 * 2 ^ 6 + xf] := by
  have hshared : (m % 2 ^ 2 * 2 ^ 6 + xf) % 2 ^ 8 = m % 2 ^ 2 * 2 ^ 6 + xf := Nat.mod_eq_of_lt (by omega)
  rw [packBytes, List.map_cons, List.map_singleton, byteAt_toNat_top (k := 2) hm, BitVec.toNat_ofNat, slice_eq,
    Nat.shiftLeft_eq, pow_zero, Nat.div_one, hshared]

theorem packBytes_w32_toNat {m xf : Nat} (hm : m < 2 ^ 24) (hxf : xf < 2 ^ 8) :
    (packBytes .w32 m xf).map BitVec.toNat = [m / 2 ^ 16, m / 2 ^ 8 % 2 ^ 8, m % 2 ^ 8, xf] := by
  simp only [packBytes, List.map_cons, List.map_nil, byteAt_toNat_top hm, byteAt_toNat_top hxf, byteAt_toNat_eq,
    Nat.reduceLeDiff, Nat.reduceSub, pow_zero, Nat.div_one]

theorem packBytes_w48_toNat {m xf : Nat} (hm : m < 2 ^ 40) (hxf : xf < 2 ^ 8) :
    (packBytes .w48 m xf).map BitVec.toNat =
      [m / 2 ^ 32, m / 2 ^ 24 % 2 ^ 8, m / 2 ^ 16 % 2 ^ 8, xf, m / 2 ^ 8 % 2 ^ 8, m % 2 ^ 8] := by
  simp only [packBytes, List.map_cons, List.map_nil, byteAt_toNat_top hm, byteAt_toNat_top hxf, byteAt_toNat_eq,
    Nat.reduceLeDiff, Nat.reduceSub, pow_zero, Nat.div_one]

theorem okResponse_w16_word {m xf : Nat} (hm : m < 2 ^ 10) (hxf : xf < 2 ^ 6) :
    (okResponse .w16 m xf).data.toNat / 2 ^ 32 = m * 2 ^ 6 + xf := by
  rw [okResponse_data_toNat .w16 hm hxf]
  exact Nat.mul_div_cancel _ (Nat.two_pow_pos _)

/-- Settles O17. -/
theorem resultLayouts : Obligations.ResultLayouts := by
  refine ⟨fun m xf hm hxf => ?_, fun m xf hm hxf => ?_, fun m xf hm hxf => ?_, fun f m xf hm hxf => ?_⟩
  · rw [responseBytes_okResponse, packBytes_w16_toNat hm hxf]
    exact ⟨rfl, okResponse_w16_word hm hxf⟩
  · rw [responseBytes_okResponse, packBytes_w32_toNat hm hxf]
  · rw [responseBytes_okResponse, packBytes_w48_toNat hm hxf]
  · exact ⟨mantissaField_okResponse f hm hxf, exponentField_okResponse f hm hxf⟩

end Sys2Proof.Machine

/-! Numeric literals (30_encoding.md rule R44): the non-negative finite patterns are in the order of the numbers they denote,
the search finds the last of them that is not above the literal, and the nearest is that one or the next; O5 from these. -/

namespace Sys2Proof.Machine

/-! ### The patterns in order -/

theorem scaledPattern_of_lt {b : Nat} (hb : b < 2 ^ 52) : scaledPattern b = b := by
  rw [scaledPattern, if_pos (Nat.div_eq_of_lt hb)]

theorem scaledPattern_of_le {b : Nat} (hb : 2 ^ 52 ≤ b) :
    scaledPattern b = (2 ^ 52 + b % 2 ^ 52) * 2 ^ (b / 2 ^ 52 - 1) := by
  rw [scaledPattern, if_neg (by omega)]

/-- The next pattern is one unit in the last place further, across the end of a binade too. -/
theorem scaledPattern_succ (b : Nat) : scaledPattern (b + 1) = scaledPattern b + 2 ^ (b / 2 ^ 52 - 1) := by
  rcases lt_or_ge b (2 ^ 52) with hsub | hnormal
  · rw [scaledPattern_of_lt hsub, show b / 2 ^ 52 - 1 = 0 by omega, pow_zero]
    rcases lt_or_ge (b + 1) (2 ^ 52) with hsub' | hnormal'
    · exact scaledPattern_of_lt hsub'
    · obtain rfl : b = 2 ^ 52 - 1 := by omega
      rfl
  · rw [scaledPattern_of_le hnormal, scaledPattern_of_le (by omega), ← Nat.succ_mul]
    rcases lt_or_ge (b % 2 ^ 52 + 1) (2 ^ 52) with hsame | hcarry
    · rw [show (b + 1) / 2 ^ 52 = b / 2 ^ 52 by omega, show (b + 1) % 2 ^ 52 = b % 2 ^ 52 + 1 by omega,
        ← Nat.add_assoc]
    · obtain ⟨k, hk⟩ : ∃ k, b / 2 ^ 52 = k + 1 := ⟨b / 2 ^ 52 - 1, by omega⟩
      rw [show (b + 1) / 2 ^ 52 = b / 2 ^ 52 + 1 by omega, show (b + 1) % 2 ^ 52 = 0 by omega,
        show b % 2 ^ 52 = 2 ^ 52 - 1 by omega, hk, Nat.add_sub_cancel, Nat.add_sub_cancel, pow_succ]
      omega

/-- The value of the non-negative finite pattern `b`. -/
def patternValue (b : Nat) : ℚ := scaledPattern b / 2 ^ 1074

theorem patternValue_mono : Monotone patternValue := by
  refine monotone_nat_of_le_succ fun b => ?_
  have hscaled : scaledPattern b ≤ scaledPattern (b + 1) := by
    rw [scaledPattern_succ]
    exact Nat.le_add_right _ _
  exact div_le_div_of_nonneg_right (Nat.cast_le.mpr hscaled) (by positivity)

theorem patternValue_nonneg (b : Nat) : 0 ≤ patternValue b := div_nonneg (Nat.cast_nonneg _) (by positivity)

/-! ### The fields of a pattern and of its absolute value -/

/-- The pattern without its sign bit. -/
def magnitudePattern (v : Binary64) : Nat := v.toNat % 2 ^ 63

theorem biasedExponent_eq (v : Binary64) : biasedExponent v = magnitudePattern v / 2 ^ 52 := by
  rw [biasedExponent, magnitudePattern, BitVec.extractLsb'_toNat, Nat.shiftRight_eq_div_pow]
  omega

theorem trailingSignificand_eq (v : Binary64) : trailingSignificand v = magnitudePattern v % 2 ^ 52 := by
  rw [trailingSignificand, magnitudePattern, BitVec.extractLsb'_toNat, Nat.shiftRight_zero]
  omega

theorem biasedExponent_ne_iff (v : Binary64) : biasedExponent v ≠ 2047 ↔ magnitudePattern v ≤ maxFinitePattern := by
  have hrange : magnitudePattern v < 2 ^ 63 := Nat.mod_lt _ (Nat.two_pow_pos 63)
  rw [biasedExponent_eq, maxFinitePattern]
  omega

theorem magnitudePattern_lt_iff (v : Binary64) : magnitudePattern v < 2 ^ 52 ↔ biasedExponent v = 0 := by
  rw [biasedExponent_eq]
  omega

/-- 30_encoding.md rule R34 in one formula: the pattern without its sign bit says the absolute value. -/
theorem realValue_of_finite {v : Binary64} (hv : biasedExponent v ≠ 2047) :
    realValue v = some ((if signBit v then -1 else 1) * patternValue (magnitudePattern v)) := by
  have hrange := biasedExponent_lt v
  rcases lt_or_ge (magnitudePattern v) (2 ^ 52) with hsub | hnormal
  · have hbe := (magnitudePattern_lt_iff v).mp hsub
    rw [realValue_of_biasedExponent_zero hbe, patternValue, scaledPattern_of_lt hsub, trailingSignificand_eq,
      Nat.mod_eq_of_lt hsub, zpow_neg, div_eq_mul_inv]
    norm_cast
  · have hbe : 1 ≤ biasedExponent v := by
      rw [biasedExponent_eq]
      omega
    have hexp : (biasedExponent v : ℤ) - 1075 = ((biasedExponent v - 1 : ℕ) : ℤ) - (1074 : ℕ) := by omega
    rw [realValue_of_normal hbe (by omega), patternValue, scaledPattern_of_le hnormal, ← biasedExponent_eq,
      ← trailingSignificand_eq, hexp, zpow_sub₀ two_ne_zero, zpow_natCast, zpow_natCast, ← mul_div_assoc]
    norm_cast

theorem abs_sign (negative : Bool) : |if negative then (-1 : ℚ) else 1| = 1 := by
  cases negative <;> simp

theorem abs_of_realValue {v : Binary64} {y : ℚ} (hy : realValue v = some y) :
    magnitudePattern v ≤ maxFinitePattern ∧ |y| = patternValue (magnitudePattern v) := by
  have hv : biasedExponent v ≠ 2047 := fun hbe => by
    rw [(realValue_eq_none_iff v).mpr hbe] at hy
    cases hy
  rw [realValue_of_finite hv, Option.some.injEq] at hy
  rw [← hy, abs_mul, abs_sign, one_mul, abs_of_nonneg (patternValue_nonneg _)]
  exact ⟨(biasedExponent_ne_iff v).mp hv, rfl⟩

/-! ### The pattern of a literal -/

/-- The non-negative pattern `b` with a sign bit before it. -/
def signedPattern (negative : Bool) (b : Nat) : Binary64 := BitVec.ofNat 64 (b + if negative then 2 ^ 63 else 0)

theorem literalBits_number (negative : Bool) (num den : Nat) :
    literalBits (.number negative num den) = signedPattern negative (nearestPattern num den) := rfl

theorem signedPattern_toNat (negative : Bool) {b : Nat} (hb : b < 2 ^ 63) :
    (signedPattern negative b).toNat = b + if negative then 2 ^ 63 else 0 := by
  rw [signedPattern, BitVec.toNat_ofNat, Nat.mod_eq_of_lt]
  split <;> omega

theorem magnitudePattern_signedPattern (negative : Bool) {b : Nat} (hb : b < 2 ^ 63) :
    magnitudePattern (signedPattern negative b) = b := by
  rw [magnitudePattern, signedPattern_toNat negative hb]
  split <;> omega

theorem signBit_eq_decide (v : Binary64) : signBit v = decide (2 ^ 63 ≤ v.toNat) := by
  rw [signBit, ← BitVec.msb_eq_getLsbD_last v, BitVec.msb_eq_decide v]

theorem signBit_signedPattern (negative : Bool) {b : Nat} (hb : b < 2 ^ 63) :
    signBit (signedPattern negative b) = negative := by
  rw [signBit_eq_decide, signedPattern_toNat negative hb]
  cases negative with
  | false => exact decide_eq_false (Nat.not_le.mpr hb)
  | true => exact decide_eq_true (Nat.le_add_left _ _)

theorem realValue_signedPattern (negative : Bool) {b : Nat} (hb : b ≤ maxFinitePattern) :
    realValue (signedPattern negative b) = some ((if negative then -1 else 1) * patternValue b) := by
  have hlt : b < 2 ^ 63 := hb.trans_lt (by decide)
  have hmagnitude := magnitudePattern_signedPattern negative hlt
  rw [realValue_of_finite ((biasedExponent_ne_iff _).mpr (by rwa [hmagnitude])), signBit_signedPattern negative hlt,
    hmagnitude]

/-! ### The search -/

/-- `b` is a finite pattern whose value is at most `num / den`. -/
def NotAbove (num den b : Nat) : Prop := b ≤ maxFinitePattern ∧ scaledPattern b * den ≤ num * 2 ^ 1074

theorem greatestPattern_of_notAbove {num den k acc : Nat} (h : NotAbove num den (acc + 2 ^ k)) :
    greatestPattern num den (k + 1) acc = greatestPattern num den k (acc + 2 ^ k) := if_pos h

theorem greatestPattern_of_above {num den k acc : Nat} (h : ¬NotAbove num den (acc + 2 ^ k)) :
    greatestPattern num den (k + 1) acc = greatestPattern num den k acc := if_neg h

/-- Halving the interval keeps its lower end not above the literal, and its upper end above. -/
theorem greatestPattern_brackets {num den k acc : Nat} (hlower : NotAbove num den acc)
    (hupper : ¬NotAbove num den (acc + 2 ^ k)) :
    NotAbove num den (greatestPattern num den k acc) ∧ ¬NotAbove num den (greatestPattern num den k acc + 1) := by
  induction k generalizing acc with
  | zero => exact ⟨hlower, hupper⟩
  | succ k ih =>
    by_cases hmiddle : NotAbove num den (acc + 2 ^ k)
    · rw [greatestPattern_of_notAbove hmiddle]
      exact ih hmiddle (by rwa [Nat.add_assoc, ← Nat.two_mul, ← Nat.pow_succ'])
    · rw [greatestPattern_of_above hmiddle]
      exact ih hlower hmiddle

/-- The pattern the search ends at. -/
def lastNotAbove (num den : Nat) : Nat := greatestPattern num den 63 0

theorem lastNotAbove_spec (num den : Nat) :
    NotAbove num den (lastNotAbove num den) ∧ ¬NotAbove num den (lastNotAbove num den + 1) := by
  refine greatestPattern_brackets ⟨Nat.zero_le _, ?_⟩ fun hmax => absurd hmax.1 (by decide)
  rw [scaledPattern_of_lt (Nat.two_pow_pos 52), Nat.zero_mul]
  exact Nat.zero_le _

/-! ### The nearest pattern -/

theorem patternValue_le_iff {den : Nat} (hden : den ≠ 0) (num b : Nat) :
    patternValue b ≤ (num : ℚ) / den ↔ scaledPattern b * den ≤ num * 2 ^ 1074 := by
  rw [patternValue, div_le_div_iff₀ (by positivity) (by positivity)]
  norm_cast

/-- The literal against the middle of two neighbours, both times two. -/
theorem midpoint_iff {den : Nat} (hden : den ≠ 0) (num b : Nat) :
    (2 * ((num : ℚ) / den) ≤ patternValue b + patternValue (b + 1) ↔
      2 * (num * 2 ^ 1074) ≤ scaledPattern b * den + scaledPattern (b + 1) * den) ∧
    (patternValue b + patternValue (b + 1) ≤ 2 * ((num : ℚ) / den) ↔
      scaledPattern b * den + scaledPattern (b + 1) * den ≤ 2 * (num * 2 ^ 1074)) := by
  rw [patternValue, patternValue, ← add_div, ← mul_div_assoc, div_le_div_iff₀ (by positivity) (by positivity),
    div_le_div_iff₀ (by positivity) (by positivity), ← Nat.add_mul, ← Nat.mul_assoc]
  norm_cast

/-- Below the middle, or at the end of the range, the last pattern not above the literal; above it, the next. -/
theorem nearestPattern_cases {den : Nat} (hden : den ≠ 0) (num : Nat) :
    (nearestPattern num den = lastNotAbove num den ∧
      (lastNotAbove num den = maxFinitePattern ∨
        2 * ((num : ℚ) / den) ≤ patternValue (lastNotAbove num den) + patternValue (lastNotAbove num den + 1))) ∨
    (nearestPattern num den = lastNotAbove num den + 1 ∧ lastNotAbove num den ≠ maxFinitePattern ∧
      patternValue (lastNotAbove num den) + patternValue (lastNotAbove num den + 1) ≤ 2 * ((num : ℚ) / den)) := by
  rw [(midpoint_iff hden num _).1, (midpoint_iff hden num _).2]
  simp only [nearestPattern, lastNotAbove]
  split_ifs with hbelow habove htie
  · exact .inl ⟨rfl, hbelow.imp_right Nat.le_of_lt⟩
  · exact .inr ⟨rfl, fun hmax => hbelow (.inl hmax), habove.le⟩
  · exact .inr ⟨rfl, fun hmax => hbelow (.inl hmax), Nat.le_of_not_lt fun h => hbelow (.inr h)⟩
  · exact .inl ⟨rfl, .inr (Nat.le_of_not_lt habove)⟩

theorem nearest_of_le_midpoint {f : ℕ → ℚ} (hf : Monotone f) {x : ℚ} {b top c : ℕ} (hb : f b ≤ x)
    (hmid : b = top ∨ 2 * x ≤ f b + f (b + 1)) (hc : c ≤ top) : |f b - x| ≤ |f c - x| := by
  rw [abs_of_nonpos (sub_nonpos.mpr hb)]
  rcases le_or_gt c b with hle | hgt
  · have hfc : f c ≤ f b := hf hle
    rw [abs_of_nonpos (by linarith)]
    linarith
  · have hfc : f (b + 1) ≤ f c := hf hgt
    have hmid := hmid.resolve_left (by omega)
    exact le_abs.mpr (.inl (by linarith))

theorem nearest_of_midpoint_le {f : ℕ → ℚ} (hf : Monotone f) {x : ℚ} {b : ℕ} (c : ℕ) (hx : x ≤ f (b + 1))
    (hmid : f b + f (b + 1) ≤ 2 * x) : |f (b + 1) - x| ≤ |f c - x| := by
  rw [abs_of_nonneg (sub_nonneg.mpr hx)]
  rcases le_or_gt c b with hle | hgt
  · have hfc : f c ≤ f b := hf hle
    exact le_abs.mpr (.inr (by linarith))
  · have hfc : f (b + 1) ≤ f c := hf hgt
    exact le_abs.mpr (.inl (by linarith))

theorem nearestPattern_spec {den : Nat} (hden : den ≠ 0) (num : Nat) :
    nearestPattern num den ≤ maxFinitePattern ∧ ∀ c ≤ maxFinitePattern,
      |patternValue (nearestPattern num den) - (num : ℚ) / den| ≤ |patternValue c - (num : ℚ) / den| := by
  obtain ⟨⟨hfinite, hlower⟩, hupper⟩ := lastNotAbove_spec num den
  rcases nearestPattern_cases hden num with ⟨heq, hmid⟩ | ⟨heq, hmax, hmid⟩
  · rw [heq]
    exact ⟨hfinite, fun c => nearest_of_le_midpoint patternValue_mono ((patternValue_le_iff hden _ _).mpr hlower) hmid⟩
  · have hnext : lastNotAbove num den + 1 ≤ maxFinitePattern := by omega
    have habove : (num : ℚ) / den ≤ patternValue (lastNotAbove num den + 1) :=
      (lt_of_not_ge fun hle => hupper ⟨hnext, (patternValue_le_iff hden _ _).mp hle⟩).le
    rw [heq]
    exact ⟨hnext, fun c _ => nearest_of_midpoint_le patternValue_mono c habove hmid⟩

/-- Settles O5: the literal's absolute value is nearest among the absolute values, and a sign of the other kind only adds to
the distance. -/
theorem literalIsNearest : Obligations.LiteralIsNearest := by
  intro negative num den hden
  obtain ⟨hfinite, hnearest⟩ := nearestPattern_spec hden num
  rw [literalBits_number]
  refine ⟨_, realValue_signedPattern negative hfinite, signBit_signedPattern negative (hfinite.trans_lt (by decide)),
    fun v y hy => ?_⟩
  obtain ⟨hrange, habs⟩ := abs_of_realValue hy
  have hliteral : |(if negative then (-1 : ℚ) else 1) * ((num : ℚ) / den)| = (num : ℚ) / den := by
    rw [abs_mul, abs_sign, one_mul, abs_of_nonneg (by positivity)]
  calc |(if negative then (-1 : ℚ) else 1) * patternValue (nearestPattern num den) -
          (if negative then -1 else 1) * ((num : ℚ) / den)|
      = |patternValue (nearestPattern num den) - (num : ℚ) / den| := by rw [← mul_sub, abs_mul, abs_sign, one_mul]
    _ ≤ |patternValue (magnitudePattern v) - (num : ℚ) / den| := hnearest _ hrange
    _ = |(|y| - |(if negative then (-1 : ℚ) else 1) * ((num : ℚ) / den)|)| := by rw [habs, hliteral]
    _ ≤ |y - (if negative then -1 else 1) * ((num : ℚ) / den)| := abs_abs_sub_abs_le _ _

end Sys2Proof.Machine

/-! The number a finite operand denotes, by its significand: the frexp decomposition of the table is the only one
(40_encode.md rules R49 and R50); O8 from these. -/

namespace Sys2Proof.Machine

/-! ### The one frexp decomposition -/

theorem IsFrexp.exponent_le {x f g : ℚ} {e k : ℤ} (hf : IsFrexp x f e) (hg : IsFrexp x g k) (hx : x ≠ 0) : k ≤ e := by
  obtain ⟨hzero, _⟩ | ⟨_, hxf, _, hf1⟩ := hf
  · exact absurd hzero hx
  obtain ⟨hzero, _⟩ | ⟨_, hxg, hg2, _⟩ := hg
  · exact absurd hzero hx
  have hlt : (2 : ℚ) ^ (k - 1) < 2 ^ e :=
    calc (2 : ℚ) ^ (k - 1) = 1 / 2 * 2 ^ k := by rw [zpow_sub_one₀ two_ne_zero]; ring
      _ ≤ g * 2 ^ k := mul_le_mul_of_nonneg_right hg2 (by positivity)
      _ = f * 2 ^ e := hxg.symm.trans hxf
      _ < 2 ^ e := mul_lt_of_lt_one_left (by positivity) hf1
  have hexponents : k - 1 < e := (zpow_lt_zpow_iff_right₀ one_lt_two).mp hlt
  omega

/-- 40_encode.md rule R49: a number has one frexp decomposition. -/
theorem IsFrexp.unique {x f g : ℚ} {e k : ℤ} (hf : IsFrexp x f e) (hg : IsFrexp x g k) : g = f ∧ k = e := by
  by_cases hx : x = 0
  · obtain ⟨_, rfl, rfl⟩ | ⟨hne, _⟩ := hf
    · obtain ⟨_, rfl, rfl⟩ | ⟨hne, _⟩ := hg
      · exact ⟨rfl, rfl⟩
      · exact absurd hx hne
    · exact absurd hx hne
  · obtain rfl : k = e := le_antisymm (hf.exponent_le hg hx) (hg.exponent_le hf hx)
    obtain ⟨hzero, _⟩ | ⟨_, hxf, _⟩ := hf
    · exact absurd hzero hx
    obtain ⟨hzero, _⟩ | ⟨_, hxg, _⟩ := hg
    · exact absurd hzero hx
    exact ⟨mul_right_cancel₀ (zpow_ne_zero k two_ne_zero) (hxg.symm.trans hxf), rfl⟩

/-! ### The significand of an operand -/

/-- The integer whose leading bits are the mantissa: `fr`, with the hidden bit for a normal operand. -/
def significand : Magnitude → Nat
  | .zero => 0
  | .subnormal fr => fr
  | .normal _ fr => 2 ^ 52 + fr

/-- The bit length of the significand of a non-zero operand. -/
def significandBits : Magnitude → Nat
  | .zero => 0
  | .subnormal fr => bitlen fr
  | .normal _ _ => 53

theorem significand_range {v : Binary64} {mag : Magnitude} (hmag : magnitude v = some mag) (hne : mag ≠ .zero) :
    2 ^ (significandBits mag - 1) ≤ significand mag ∧ significand mag < 2 ^ significandBits mag := by
  obtain ⟨hzero, _⟩ | ⟨rfl, _, hfr⟩ | ⟨rfl, _⟩ := magnitude_cases v hmag
  · exact absurd hzero hne
  · exact bitlen_spec hfr
  · have hfr := trailingSignificand_lt v
    simp only [significand, significandBits]
    omega

theorem significandBits_pos {mag : Magnitude} (hne : mag ≠ .zero) : 1 ≤ significandBits mag := by
  cases mag with
  | zero => exact absurd rfl hne
  | subnormal fr => exact Nat.succ_pos _
  | normal be fr => exact Nat.succ_pos 52

theorem fraction_eq (mag : Magnitude) : fraction mag = (significand mag : ℚ) / (2 ^ significandBits mag : ℕ) := by
  cases mag with
  | zero => simp [fraction, significand]
  | subnormal fr => rw [fraction, significand, significandBits, Nat.cast_pow, Nat.cast_ofNat]
  | normal be fr => rw [fraction, significand, significandBits, Nat.cast_pow, Nat.cast_ofNat]

theorem fraction_nonneg (mag : Magnitude) : 0 ≤ fraction mag := by
  rw [fraction_eq]
  positivity

theorem fraction_range {v : Binary64} {mag : Magnitude} (hmag : magnitude v = some mag) (hne : mag ≠ .zero) :
    1 / 2 ≤ fraction mag ∧ fraction mag < 1 := by
  obtain ⟨hlo, hhi⟩ := significand_range hmag hne
  have hbits : 2 ^ significandBits mag = 2 * 2 ^ (significandBits mag - 1) :=
    (mul_pow_sub_one (Nat.one_le_iff_ne_zero.mp (significandBits_pos hne)) 2).symm
  rw [fraction_eq, div_le_div_iff₀ two_pos (by positivity), div_lt_one (by positivity)]
  norm_cast
  omega

/-- 40_encode.md rule R50: the table's fraction and exponent give back the absolute value. -/
theorem magnitudeValue_eq (mag : Magnitude) : magnitudeValue mag = fraction mag * 2 ^ naturalExponent mag := by
  cases mag with
  | zero => simp [magnitudeValue, fraction]
  | subnormal fr =>
    simp only [magnitudeValue, fraction, naturalExponent]
    rw [zpow_sub₀ two_ne_zero, zpow_natCast, zpow_neg]
    field_simp
  | normal be fr =>
    simp only [magnitudeValue, fraction, naturalExponent]
    rw [show (be : ℤ) - 1022 = (be - 1075) + (53 : ℕ) by omega, zpow_add₀ two_ne_zero, zpow_natCast]
    field_simp

theorem magnitudeValue_pos {v : Binary64} {mag : Magnitude} (hmag : magnitude v = some mag) (hne : mag ≠ .zero) :
    0 < magnitudeValue mag := by
  have hfraction : 0 < fraction mag := one_half_pos.trans_le (fraction_range hmag hne).1
  rw [magnitudeValue_eq]
  positivity

theorem eq_of_realValue {v : Binary64} {mag : Magnitude} {x : ℚ} (hmag : magnitude v = some mag)
    (hx : realValue v = some x) : x = (if signBit v then -1 else 1) * (fraction mag * 2 ^ naturalExponent mag) := by
  rw [realValue_of_magnitude hmag, magnitudeValue_eq] at hx
  exact (Option.some.inj hx).symm

theorem isFrexp_of_realValue {v : Binary64} {mag : Magnitude} {x : ℚ} (hmag : magnitude v = some mag)
    (hx : realValue v = some x) : IsFrexp x (fraction mag) (naturalExponent mag) := by
  have hxmag := eq_of_realValue hmag hx
  by_cases hzero : mag = .zero
  · subst hzero
    exact .inl ⟨hxmag.trans (by simp [fraction]), rfl, rfl⟩
  · have hpos := magnitudeValue_pos hmag hzero
    rw [magnitudeValue_eq] at hpos
    have habs : |x| = fraction mag * 2 ^ naturalExponent mag := by
      rw [hxmag, abs_mul, abs_sign, one_mul, abs_of_pos hpos]
    exact .inr ⟨abs_pos.mp (habs ▸ hpos), habs, fraction_range hmag hzero⟩

theorem realValue_eq_zero_iff {v : Binary64} {mag : Magnitude} (hmag : magnitude v = some mag) :
    realValue v = some 0 ↔ mag = .zero := by
  refine ⟨fun hx => by_contra fun hne => ?_, fun hzero => ?_⟩
  · obtain ⟨_, hfraction, _⟩ | ⟨hne0, _⟩ := isFrexp_of_realValue hmag hx
    · have hlower := (fraction_range hmag hne).1
      norm_num [hfraction] at hlower
    · exact hne0 rfl
  · rw [realValue_of_magnitude hmag, hzero, magnitudeValue, mul_zero]

/-! ### The range of the exponent -/

theorem naturalExponent_range_of_normal {v : Binary64} {mag : Magnitude} (hmag : magnitude v = some mag)
    (hclass : classify v = .normal) : -1021 ≤ naturalExponent mag ∧ naturalExponent mag ≤ 1024 := by
  obtain ⟨hlo, hhi⟩ := (classify_eq_normal_iff v).mp hclass
  rw [magnitude, hclass] at hmag
  obtain rfl := Option.some.inj hmag
  simp only [naturalExponent]
  omega

theorem bitlen_le {x k : Nat} (hx : x ≠ 0) (hk : x < 2 ^ k) : bitlen x ≤ k := (Nat.log2_lt hx).mpr hk

theorem naturalExponent_range_of_subnormal {v : Binary64} {mag : Magnitude} (hmag : magnitude v = some mag)
    (hclass : classify v = .subnormal) : -1073 ≤ naturalExponent mag ∧ naturalExponent mag ≤ -1022 := by
  obtain ⟨_, hfr⟩ := (classify_eq_subnormal_iff v).mp hclass
  have hlo : 1 ≤ bitlen (trailingSignificand v) := Nat.succ_pos _
  have hhi : bitlen (trailingSignificand v) ≤ 52 := bitlen_le hfr (trailingSignificand_lt v)
  rw [magnitude, hclass] at hmag
  obtain rfl := Option.some.inj hmag
  simp only [naturalExponent]
  omega

/-- Settles O8. -/
theorem frexpDecomposition : Obligations.FrexpDecomposition := fun _ _ _ hmag hx =>
  ⟨isFrexp_of_realValue hmag hx, fun _ _ => (isFrexp_of_realValue hmag hx).unique,
    naturalExponent_range_of_normal hmag, naturalExponent_range_of_subnormal hmag⟩

end Sys2Proof.Machine

/-! Scaling, rounding and renormalization in exact arithmetic (40_encode.md rules R51 to R55): `raw` is a floor, adding the
rounding bit adds a half before the floor, and the carry is the last value of `raw`; O9, O10 and O11 from these. -/

namespace Sys2Proof.Machine

/-! ### Scaling is a floor -/

/-- 40_encode.md rule R52: both shifts of the table scale the significand to N bits. -/
theorem rawMantissa_eq {n : Nat} (hn53 : n ≤ 53) (mag : Magnitude) :
    rawMantissa n mag = significand mag * 2 ^ n / 2 ^ significandBits mag := by
  cases mag with
  | zero => simp [rawMantissa, significand]
  | subnormal fr =>
    rw [rawMantissa, significand, significandBits]
    split
    · next hle =>
      rw [Nat.shiftLeft_eq, ← Nat.pow_sub_mul_pow 2 hle, ← Nat.mul_assoc, Nat.mul_div_cancel _ (Nat.two_pow_pos _)]
    · next hgt =>
      rw [Nat.shiftRight_eq_div_pow, ← Nat.pow_sub_mul_pow 2 (Nat.le_of_not_le hgt),
        Nat.mul_div_mul_right _ _ (Nat.two_pow_pos n)]
  | normal be fr =>
    rw [rawMantissa, significand, significandBits, Nat.shiftRight_eq_div_pow, ← Nat.pow_sub_mul_pow 2 hn53,
      Nat.mul_div_mul_right _ _ (Nat.two_pow_pos n)]

/-- 40_encode.md rule R51. -/
theorem rawMantissa_eq_floor {n : Nat} (hn53 : n ≤ 53) (mag : Magnitude) :
    (rawMantissa n mag : ℤ) = ⌊fraction mag * 2 ^ n⌋ := by
  have hscaled : fraction mag * 2 ^ n = ((significand mag * 2 ^ n : ℕ) : ℚ) / (2 ^ significandBits mag : ℕ) := by
    rw [fraction_eq]
    push_cast
    ring
  rw [hscaled, Rat.floor_natCast_div_natCast, rawMantissa_eq hn53, Int.natCast_ediv]

theorem rawMantissa_zero (n : Nat) : rawMantissa n .zero = 0 := rfl

/-- Settles O9. -/
theorem scaledMantissaIsFloor : Obligations.ScaledMantissaIsFloor := by
  intro f v mag hmag
  obtain ⟨hn, hn53⟩ := params_mantissaBits_range f
  exact ⟨rawMantissa_eq_floor hn53 mag, fun hzero => by rw [hzero, rawMantissa_zero],
    rawMantissa_range (by omega) hn53 hmag⟩

/-! ### Rounding to nearest, ties away -/

theorem roundHalfUp_eq (raw : Nat) : roundHalfUp raw = (raw + 1) / 2 := by
  rw [roundHalfUp, Nat.shiftRight_one]
  omega

theorem testBit_zero_toNat (raw : Nat) : (raw.testBit 0).toNat = raw % 2 := by
  rw [Nat.toNat_testBit, pow_zero, Nat.div_one]

/-- 40_encode.md rule R53: the rounding bit may be added before or after the shift. -/
theorem roundHalfUp_eq_shift (raw : Nat) : roundHalfUp raw = (raw + raw % 2) >>> 1 := by
  rw [roundHalfUp_eq, Nat.shiftRight_one]
  omega

/-- 40_encode.md rule R54: the bits that scaling dropped cannot change the rounding. -/
theorem roundHalfUp_rawMantissa_eq_idealRound (f : Format) (mag : Magnitude) :
    (roundHalfUp (rawMantissa (params f).mantissaBits mag) : ℤ) =
      idealRound (params f).mantissaBits (fraction mag) := by
  obtain ⟨hn, hn53⟩ := params_mantissaBits_range f
  generalize (params f).mantissaBits = n at *
  have hhalf : fraction mag * 2 ^ (n - 1) + 1 / 2 = (fraction mag * 2 ^ n + 1) / (2 : ℕ) := by
    rw [← pow_sub_one_mul (by omega : n ≠ 0) (2 : ℚ)]
    push_cast
    ring
  rw [idealRound, hhalf, Int.floor_div_natCast, Int.floor_add_one, ← rawMantissa_eq_floor hn53, roundHalfUp_eq]
  rfl

theorem roundHalfUp_rawMantissa_range (f : Format) {v : Binary64} {mag : Magnitude} (hmag : magnitude v = some mag)
    (hne : mag ≠ .zero) :
    2 ^ ((params f).mantissaBits - 2) ≤ roundHalfUp (rawMantissa (params f).mantissaBits mag) ∧
      roundHalfUp (rawMantissa (params f).mantissaBits mag) ≤ 2 ^ ((params f).mantissaBits - 1) := by
  obtain ⟨hn, hn53⟩ := params_mantissaBits_range f
  obtain ⟨hlo, hhi⟩ := rawMantissa_range (by omega) hn53 hmag hne
  exact roundHalfUp_range hn hlo hhi

/-- Settles O10. -/
theorem roundingIsTiesAway : Obligations.RoundingIsTiesAway := by
  refine ⟨fun f v mag hmag => ?_, by decide, by decide⟩
  simp only [testBit_zero_toNat]
  exact ⟨rfl, roundHalfUp_eq_shift _, roundHalfUp_rawMantissa_eq_idealRound f mag,
    fun hzero => by rw [hzero, rawMantissa_zero]; rfl, roundHalfUp_rawMantissa_range f hmag⟩

/-! ### The rounding carry -/

/-- 40_encode.md rule R55: the carry comes from the last value of `raw` alone. -/
theorem roundHalfUp_carry_iff {n raw : Nat} (hn : 2 ≤ n) (hraw : raw < 2 ^ n) :
    roundHalfUp raw = 2 ^ (n - 1) ↔ raw = 2 ^ n - 1 := by
  have hpos : 0 < 2 ^ (n - 2) := Nat.two_pow_pos _
  obtain ⟨hfull, hhalf⟩ := two_pow_eq_quarters hn
  rw [roundHalfUp_eq]
  omega

theorem rawMantissa_lt (f : Format) {v : Binary64} {mag : Magnitude} (hmag : magnitude v = some mag) :
    rawMantissa (params f).mantissaBits mag < 2 ^ (params f).mantissaBits := by
  obtain ⟨hn, hn53⟩ := params_mantissaBits_range f
  by_cases hzero : mag = .zero
  · rw [hzero, rawMantissa_zero]
    exact Nat.two_pow_pos _
  · exact (rawMantissa_range (by omega) hn53 hmag hzero).2

theorem rawMantissa_eq_last_iff (f : Format) {v : Binary64} {mag : Magnitude} (hmag : magnitude v = some mag) :
    rawMantissa (params f).mantissaBits mag = 2 ^ (params f).mantissaBits - 1 ↔
      1 - 1 / 2 ^ (params f).mantissaBits ≤ fraction mag := by
  have hlt := rawMantissa_lt f hmag
  have hfloor := rawMantissa_eq_floor (params_mantissaBits_range f).2 mag
  generalize (params f).mantissaBits = n at *
  have hscaled : 1 - 1 / 2 ^ n ≤ fraction mag ↔ ((2 ^ n - 1 : ℤ) : ℚ) ≤ fraction mag * 2 ^ n := by
    rw [one_sub_div (by positivity), div_le_iff₀ (by positivity)]
    push_cast
    rfl
  rw [hscaled, ← Int.le_floor, ← hfloor]
  zify [Nat.one_le_two_pow (n := n)] at hlt ⊢
  omega

theorem renormalize_carry {n m0 : Nat} (e : Int) (hcarry : m0 = 2 ^ (n - 1)) :
    renormalize n m0 e = { mantissa := 2 ^ (n - 2), exponent := e + 1 } := if_pos hcarry

theorem renormalize_no_carry {n m0 : Nat} (e : Int) (hcarry : m0 ≠ 2 ^ (n - 1)) :
    renormalize n m0 e = { mantissa := m0, exponent := e } := if_neg hcarry

theorem roundedMagnitude_zero (f : Format) : roundedMagnitude (params f) .zero = { mantissa := 0, exponent := 0 } := by
  cases f <;> rfl

/-- A magnitude after step 5 is 0 or has exactly N − 1 bits. -/
theorem roundedMagnitude_zero_or_range (f : Format) {v : Binary64} {mag : Magnitude} (hmag : magnitude v = some mag) :
    (roundedMagnitude (params f) mag).mantissa = 0 ∨
      2 ^ ((params f).mantissaBits - 2) ≤ (roundedMagnitude (params f) mag).mantissa ∧
        (roundedMagnitude (params f) mag).mantissa < 2 ^ ((params f).mantissaBits - 1) := by
  by_cases hzero : mag = .zero
  · rw [hzero, roundedMagnitude_zero]
    exact .inl rfl
  · exact .inr (roundedMagnitude_range f hmag hzero)

theorem roundedMagnitude_lt (f : Format) {v : Binary64} {mag : Magnitude} (hmag : magnitude v = some mag) :
    (roundedMagnitude (params f) mag).mantissa < 2 ^ ((params f).mantissaBits - 1) := by
  rcases roundedMagnitude_zero_or_range f hmag with hzero | ⟨_, hhi⟩
  · rw [hzero]
    exact Nat.two_pow_pos _
  · exact hhi

theorem roundedMagnitude_next_bit (f : Format) {v : Binary64} {mag : Magnitude} (hmag : magnitude v = some mag)
    (hne : (roundedMagnitude (params f) mag).mantissa ≠ 0) :
    (roundedMagnitude (params f) mag).mantissa.testBit ((params f).mantissaBits - 2) = true := by
  obtain ⟨hlo, hhi⟩ := (roundedMagnitude_zero_or_range f hmag).resolve_left hne
  obtain ⟨hn, _⟩ := params_mantissaBits_range f
  obtain ⟨_, hhalf⟩ := two_pow_eq_quarters hn
  exact (top_bits_of_quarter (q := 1) hn (by omega) (by omega)).2

theorem two_pow_shiftRight_one {n : Nat} (hn : 2 ≤ n) : 2 ^ (n - 1) >>> 1 = 2 ^ (n - 2) := by
  rw [(two_pow_eq_quarters hn).2, Nat.shiftRight_one, Nat.mul_div_cancel_left _ two_pos]

/-- Settles O11. -/
theorem renormalizationOnCarry : Obligations.RenormalizationOnCarry := by
  intro f v mag hmag n m0 a
  obtain ⟨hn, _⟩ := params_mantissaBits_range f
  have hcarry : m0 = 2 ^ (n - 1) ↔ rawMantissa n mag = 2 ^ n - 1 := roundHalfUp_carry_iff hn (rawMantissa_lt f hmag)
  refine ⟨fun h => ?_, fun h => ?_, roundedMagnitude_zero_or_range f hmag,
    Nat.testBit_lt_two_pow (roundedMagnitude_lt f hmag), roundedMagnitude_next_bit f hmag, hcarry,
    hcarry.trans (rawMantissa_eq_last_iff f hmag)⟩
  · have ha : a = { mantissa := 2 ^ (n - 2), exponent := naturalExponent mag + 1 } := renormalize_carry _ h
    rw [ha, h, two_pow_shiftRight_one hn]
    exact ⟨rfl, rfl, rfl⟩
  · have ha : a = { mantissa := m0, exponent := naturalExponent mag } := renormalize_no_carry _ h
    rw [ha]
    exact ⟨rfl, rfl⟩

end Sys2Proof.Machine

/-! Sign, normalization and saturation (40_encode.md rules R56 to R59): the loop moves the negated power of two and nothing
else; O12 and O13, the ranges of O16, and the fields of the response, O14, O15 and O20, from these. -/

namespace Sys2Proof.Machine

/-! ### The sign step -/

theorem applySign_true_eq {n a : Nat} (ha : a < 2 ^ n) : applySign n true a = (2 ^ n - a) % 2 ^ n := by
  rw [applySign, if_pos rfl, complement, show 2 ^ n - 1 - a + 1 = 2 ^ n - a by omega]

theorem applySign_zero (n : Nat) (negative : Bool) : applySign n negative 0 = 0 := by
  cases negative with
  | false => rfl
  | true => rw [applySign_true_eq (Nat.two_pow_pos n), Nat.sub_zero, Nat.mod_self]

theorem applySign_lt {n a : Nat} (negative : Bool) (ha : a < 2 ^ n) : applySign n negative a < 2 ^ n := by
  cases negative with
  | false => exact ha
  | true =>
    rw [applySign_true_eq ha]
    exact Nat.mod_lt _ (Nat.two_pow_pos n)

/-- 40_encode.md rule R56: the sign step negates the number that the field stands for. -/
theorem sext_applySign {n a : Nat} (negative : Bool) (hn : 2 ≤ n) (ha : a < 2 ^ (n - 1)) :
    sext n (applySign n negative a) = if negative then -(a : ℤ) else a := by
  cases negative with
  | false => exact sext_of_lt ha
  | true =>
    rcases Nat.eq_zero_or_pos a with rfl | hpos
    · rw [applySign_zero, sext_of_lt (Nat.two_pow_pos _)]
      rfl
    · obtain ⟨hfull, hhalf⟩ := two_pow_eq_quarters hn
      rw [applySign_true hpos (by omega), sext_of_le (by omega) (by omega) (by omega), Nat.cast_sub (by omega)]
      simp

/-- Settles O12. -/
theorem negationIsTwosComplement : Obligations.NegationIsTwosComplement := by
  intro f a ha n
  obtain ⟨hn, _⟩ := params_mantissaBits_range f
  have hlt : a < 2 ^ n := ha.trans (Nat.pow_lt_pow_right one_lt_two (Nat.sub_lt (by omega) one_pos))
  exact ⟨applySign_true_eq hlt, applySign_lt true hlt, sext_applySign true hn ha, applySign_false n a, applySign_zero n⟩

/-! ### The normalization loop -/

theorem applySign_true_quarter {n : Nat} (hn : 2 ≤ n) :
    applySign n true (2 ^ (n - 2)) = 3 * 2 ^ (n - 2) := by
  have hpos : 0 < 2 ^ (n - 2) := Nat.two_pow_pos _
  obtain ⟨hfull, _⟩ := two_pow_eq_quarters hn
  rw [applySign_true hpos (by omega)]
  omega

/-- 40_encode.md rule R58: the negated power of two takes one iteration. -/
theorem normalizeLoop_negated_power {n fuel : Nat} (e : Int) (hn : 2 ≤ n) (hfuel : 1 ≤ fuel) :
    normalizeLoop n fuel { mantissa := applySign n true (2 ^ (n - 2)), exponent := e } =
      { mantissa := 2 ^ (n - 1), exponent := e - 1 } := by
  obtain ⟨fuel, rfl⟩ := Nat.exists_eq_add_of_le' hfuel
  rw [applySign_true_quarter hn]
  exact normalizeLoop_three_quarters fuel e hn

/-- 40_encode.md rule R58: every other magnitude takes none. -/
theorem normalizeLoop_applySign_other {n a : Nat} {negative : Bool} (fuel : Nat) (e : Int) (hn : 2 ≤ n)
    (ha : a = 0 ∨ 2 ^ (n - 2) ≤ a ∧ a < 2 ^ (n - 1)) (hother : ¬(negative = true ∧ a = 2 ^ (n - 2))) :
    normalizeLoop n fuel { mantissa := applySign n negative a, exponent := e } =
      { mantissa := applySign n negative a, exponent := e } := by
  have hpos : 0 < 2 ^ (n - 2) := Nat.two_pow_pos _
  obtain ⟨hfull, hhalf⟩ := two_pow_eq_quarters hn
  rcases ha with rfl | ⟨hlo, hhi⟩
  · rw [applySign_zero]
    exact normalizeLoop_of_quarter (q := 0) fuel _ hn rfl (by simp) (by simp)
  · cases negative with
    | false => exact normalizeLoop_of_quarter (q := 1) fuel _ hn rfl (by simpa [applySign_false]) (by
        simp only [applySign_false]; omega)
    | true =>
      have hne : a ≠ 2 ^ (n - 2) := fun h => hother ⟨rfl, h⟩
      rw [applySign_true (by omega) (by omega)]
      exact normalizeLoop_of_quarter (q := 2) fuel _ hn rfl (by simp only; omega) (by simp only; omega)

theorem normalizedResult_negated_power (f : Format) {mag : Magnitude}
    (hpower : (roundedMagnitude (params f) mag).mantissa = 2 ^ ((params f).mantissaBits - 2)) :
    normalizedResult (params f) true mag =
      { mantissa := 2 ^ ((params f).mantissaBits - 1), exponent := (roundedMagnitude (params f) mag).exponent - 1 } := by
  obtain ⟨hn, _⟩ := params_mantissaBits_range f
  rw [normalizedResult, hpower]
  exact normalizeLoop_negated_power _ hn (by omega)

theorem normalizedResult_other (f : Format) {negative : Bool} {v : Binary64} {mag : Magnitude}
    (hmag : magnitude v = some mag)
    (hother : ¬(negative = true ∧ (roundedMagnitude (params f) mag).mantissa = 2 ^ ((params f).mantissaBits - 2))) :
    normalizedResult (params f) negative mag =
      { mantissa := applySign (params f).mantissaBits negative (roundedMagnitude (params f) mag).mantissa
        exponent := (roundedMagnitude (params f) mag).exponent } :=
  normalizeLoop_applySign_other _ _ (params_mantissaBits_range f).1 (roundedMagnitude_zero_or_range f hmag) hother

theorem normalizedResult_zero (f : Format) (negative : Bool) :
    normalizedResult (params f) negative .zero = { mantissa := 0, exponent := 0 } := by
  have hother : ¬(negative = true ∧
      (roundedMagnitude (params f) .zero).mantissa = 2 ^ ((params f).mantissaBits - 2)) := fun h =>
    absurd (h.2.symm.trans (congrArg Scaled.mantissa (roundedMagnitude_zero f))) (Nat.two_pow_pos _).ne'
  rw [normalizedResult_other f (v := 0) (by decide) hother, roundedMagnitude_zero, applySign_zero]

/-- The one field whose number has no negation in the field. -/
theorem sext_top_bit {n : Nat} (hn : 1 ≤ n) : sext n (2 ^ (n - 1)) = -2 ^ (n - 1) := by
  have hdouble : (2 : ℤ) ^ n = 2 * 2 ^ (n - 1) := (mul_pow_sub_one (by omega) 2).symm
  rw [sext_of_le hn le_rfl (Nat.pow_lt_pow_right one_lt_two (by omega)), hdouble]
  push_cast
  ring

/-- The signed number that the mantissa stands for after the loop, by its two cases. -/
theorem normalizedResult_cases (f : Format) (negative : Bool) {v : Binary64} {mag : Magnitude}
    (hmag : magnitude v = some mag) :
    let n := (params f).mantissaBits
    let a := roundedMagnitude (params f) mag
    let b := normalizedResult (params f) negative mag
    (negative = true ∧ a.mantissa = 2 ^ (n - 2) ∧ sext n b.mantissa = -2 ^ (n - 1) ∧ b.exponent = a.exponent - 1) ∨
      (¬(negative = true ∧ a.mantissa = 2 ^ (n - 2)) ∧
        sext n b.mantissa = (if negative then -(a.mantissa : ℤ) else a.mantissa) ∧ b.exponent = a.exponent) := by
  intro n a b
  obtain ⟨hn, _⟩ := params_mantissaBits_range f
  by_cases hpower : negative = true ∧ a.mantissa = 2 ^ (n - 2)
  · obtain ⟨rfl, ha⟩ := hpower
    have hb : b = { mantissa := 2 ^ (n - 1), exponent := a.exponent - 1 } := normalizedResult_negated_power f ha
    rw [hb, sext_top_bit (by omega)]
    exact .inl ⟨rfl, ha, rfl, rfl⟩
  · have hb : b = { mantissa := applySign n negative a.mantissa, exponent := a.exponent } :=
      normalizedResult_other f hmag hpower
    rw [hb]
    exact .inr ⟨hpower, sext_applySign negative hn (roundedMagnitude_lt f hmag), rfl⟩

/-- The loop halves or keeps the exponent's power as it doubles or keeps the mantissa. -/
theorem normalizedResult_value (f : Format) (negative : Bool) {v : Binary64} {mag : Magnitude}
    (hmag : magnitude v = some mag) :
    (sext (params f).mantissaBits (normalizedResult (params f) negative mag).mantissa : ℚ) *
        2 ^ (normalizedResult (params f) negative mag).exponent =
      (if negative then -1 else 1) * (roundedMagnitude (params f) mag).mantissa *
        2 ^ (roundedMagnitude (params f) mag).exponent := by
  obtain ⟨hn, _⟩ := params_mantissaBits_range f
  obtain ⟨rfl, ha, hm, he⟩ | ⟨_, hm, he⟩ := normalizedResult_cases f negative hmag
  · obtain ⟨k, hk⟩ := Nat.exists_eq_add_of_le' hn
    rw [hm, he, ha, hk, if_pos rfl, zpow_sub_one₀ two_ne_zero, Nat.add_sub_cancel, show k + 2 - 1 = k + 1 by omega]
    push_cast
    ring
  · rw [hm, he]
    cases negative <;> simp

/-- Settles O13. -/
theorem normalizationRunsAtMostOnce : Obligations.NormalizationRunsAtMostOnce := by
  intro f v mag negative fuel hmag hfuel n a b
  obtain ⟨hn, _⟩ := params_mantissaBits_range f
  have hb : b = normalizedResult (params f) negative mag := by
    by_cases hpower : negative = true ∧ a.mantissa = 2 ^ (n - 2)
    · obtain ⟨rfl, ha⟩ := hpower
      rw [normalizedResult_negated_power f ha, ← normalizeLoop_negated_power _ hn hfuel, ← ha]
    · rw [normalizedResult_other f hmag hpower]
      exact normalizeLoop_applySign_other _ _ hn (roundedMagnitude_zero_or_range f hmag) hpower
  refine ⟨hb, fun hneg ha => ?_, fun hother => ?_, ?_⟩
  · subst hneg
    obtain ⟨hfull, hhalf⟩ := two_pow_eq_quarters hn
    rw [hb, ha, applySign_true_quarter hn, normalizedResult_negated_power f ha, hhalf]
    exact ⟨by ring, rfl, rfl⟩
  · rw [hb, normalizedResult_other f hmag hother]
    exact ⟨rfl, rfl⟩
  · rw [hb, normalizedResult_value f negative hmag, sext_applySign negative hn (roundedMagnitude_lt f hmag)]
    cases negative <;> simp [a]

/-! ### The ranges of the steps -/

theorem naturalExponent_range {v : Binary64} {mag : Magnitude} (hmag : magnitude v = some mag) :
    -1073 ≤ naturalExponent mag ∧ naturalExponent mag ≤ 1024 := by
  have hbe := biasedExponent_lt v
  obtain ⟨rfl, _⟩ | ⟨_, hsub⟩ | ⟨rfl, hlo, hhi⟩ := magnitude_cases v hmag
  · simp [naturalExponent]
  · obtain ⟨hlo, hhi⟩ := naturalExponent_range_of_subnormal hmag ((classify_eq_subnormal_iff v).mpr hsub)
    omega
  · simp only [naturalExponent]
    omega

theorem roundedMagnitude_exponent (p : FormatParams) (mag : Magnitude) :
    naturalExponent mag ≤ (roundedMagnitude p mag).exponent ∧
      (roundedMagnitude p mag).exponent ≤ naturalExponent mag + 1 := by
  rw [roundedMagnitude, renormalize]
  split <;> simp

theorem normalizedResult_exponent (f : Format) (negative : Bool) {v : Binary64} {mag : Magnitude}
    (hmag : magnitude v = some mag) :
    (roundedMagnitude (params f) mag).exponent - 1 ≤ (normalizedResult (params f) negative mag).exponent ∧
      (normalizedResult (params f) negative mag).exponent ≤ (roundedMagnitude (params f) mag).exponent := by
  obtain ⟨_, _, _, he⟩ | ⟨_, _, he⟩ := normalizedResult_cases f negative hmag <;> rw [he] <;> omega

theorem normalizedResult_mantissa_lt (f : Format) (negative : Bool) {v : Binary64} {mag : Magnitude}
    (hmag : magnitude v = some mag) :
    (normalizedResult (params f) negative mag).mantissa < 2 ^ (params f).mantissaBits := by
  by_cases hzero : mag = .zero
  · rw [hzero, normalizedResult_zero]
    exact Nat.two_pow_pos _
  · exact normalizedResult_lt f negative hmag hzero

theorem roundHalfUp_rawMantissa_le (f : Format) {v : Binary64} {mag : Magnitude} (hmag : magnitude v = some mag) :
    roundHalfUp (rawMantissa (params f).mantissaBits mag) ≤ 2 ^ ((params f).mantissaBits - 1) := by
  by_cases hzero : mag = .zero
  · rw [hzero, rawMantissa_zero]
    exact Nat.zero_le _
  · exact (roundHalfUp_rawMantissa_range f hmag hzero).2

/-- The exponent field holds every exponent of the format's range, and no other. -/
theorem params_exponent_range (f : Format) :
    1 ≤ (params f).exponentBits ∧ (params f).emin = -2 ^ ((params f).exponentBits - 1) ∧
      (params f).emax = 2 ^ ((params f).exponentBits - 1) - 1 ∧ (params f).emin ≤ 0 ∧ 0 ≤ (params f).emax := by
  cases f <;> decide

theorem clampExponent_range (f : Format) (e : Int) :
    (params f).emin ≤ clampExponent (params f) e ∧ clampExponent (params f) e ≤ (params f).emax := by
  obtain ⟨_, _, _, hmin, hmax⟩ := params_exponent_range f
  rw [clampExponent]
  omega

/-- Settles O16. -/
theorem intermediateRanges : Obligations.IntermediateRanges := by
  intro f v mag negative hmag p n a b
  obtain ⟨helo, hehi⟩ := naturalExponent_range hmag
  obtain ⟨halo, hahi⟩ : naturalExponent mag ≤ a.exponent ∧ a.exponent ≤ naturalExponent mag + 1 :=
    roundedMagnitude_exponent p mag
  obtain ⟨hblo, hbhi⟩ : a.exponent - 1 ≤ b.exponent ∧ b.exponent ≤ a.exponent :=
    normalizedResult_exponent f negative hmag
  exact ⟨rawMantissa_lt f hmag, roundHalfUp_rawMantissa_le f hmag, roundedMagnitude_lt f hmag,
    normalizedResult_mantissa_lt f negative hmag, helo, hehi, by omega, by omega, by omega, by omega,
    clampExponent_range f _⟩

/-! ### The fields of the response -/

theorem clampExponent_of_lt (f : Format) {e : Int} (he : e < (params f).emin) :
    clampExponent (params f) e = (params f).emin := by
  obtain ⟨_, _, _, hmin, hmax⟩ := params_exponent_range f
  rw [clampExponent]
  omega

theorem clampExponent_of_mem (f : Format) {e : Int} (hlo : (params f).emin ≤ e) (hhi : e ≤ (params f).emax) :
    clampExponent (params f) e = e := by
  rw [clampExponent]
  omega

theorem clampExponent_of_gt (f : Format) {e : Int} (he : (params f).emax < e) :
    clampExponent (params f) e = (params f).emax := by
  obtain ⟨_, _, _, hmin, hmax⟩ := params_exponent_range f
  rw [clampExponent]
  omega

theorem sext_tc_clampExponent (f : Format) (e : Int) :
    sext (params f).exponentBits (tc (params f).exponentBits (clampExponent (params f) e)) =
      clampExponent (params f) e := by
  obtain ⟨hbits, hmin, hmax, _⟩ := params_exponent_range f
  obtain ⟨hlo, hhi⟩ := clampExponent_range f e
  exact sext_tc hbits (hmin ▸ hlo) (by omega)

theorem mantissaField_encode1750 (f : Format) {v : Binary64} {mag : Magnitude} (hmag : magnitude v = some mag) :
    mantissaField f (encode1750 v (widthCode f)).data = (normalizedResult (params f) (signBit v) mag).mantissa := by
  rw [encode1750_finite f hmag]
  exact mantissaField_okResponse f (normalizedResult_mantissa_lt f _ hmag) (tc_lt _ _)

theorem exponentField_encode1750 (f : Format) {v : Binary64} {mag : Magnitude} (hmag : magnitude v = some mag) :
    exponentField f (encode1750 v (widthCode f)).data =
      tc (params f).exponentBits
        (clampExponent (params f) (normalizedResult (params f) (signBit v) mag).exponent) := by
  rw [encode1750_finite f hmag]
  exact exponentField_okResponse f (normalizedResult_mantissa_lt f _ hmag) (tc_lt _ _)

theorem sext_exponentField_encode1750 (f : Format) {v : Binary64} {mag : Magnitude} (hmag : magnitude v = some mag) :
    sext (params f).exponentBits (exponentField f (encode1750 v (widthCode f)).data) =
      clampExponent (params f) (normalizedResult (params f) (signBit v) mag).exponent := by
  rw [exponentField_encode1750 f hmag, sext_tc_clampExponent]

theorem encode1750_status_ok (f : Format) {v : Binary64} {mag : Magnitude} (hmag : magnitude v = some mag) :
    (encode1750 v (widthCode f)).status = .ok := by
  rw [encode1750_finite f hmag]
  rfl

/-- Settles O14. -/
theorem exponentSaturates : Obligations.ExponentSaturates := by
  intro f v mag hmag p b r
  have hexponent : sext p.exponentBits (exponentField f r.data) = clampExponent p b.exponent :=
    sext_exponentField_encode1750 f hmag
  rw [hexponent]
  exact ⟨encode1750_status_ok f hmag, mantissaField_encode1750 f hmag, clampExponent_of_lt f, clampExponent_of_mem f,
    clampExponent_of_gt f⟩

theorem clampExponent_zero (f : Format) : clampExponent (params f) 0 = 0 := by
  obtain ⟨_, _, _, hmin, hmax⟩ := params_exponent_range f
  exact clampExponent_of_mem f hmin hmax

theorem tc_zero (n : Nat) : tc n 0 = 0 := by
  rw [tc, Int.zero_emod, Int.toNat_zero]

/-- 40_encode.md rule R61: a zero of either sign ends as the zero word. -/
theorem encodeFinite_zero (f : Format) (negative : Bool) : encodeFinite f negative .zero = okResponse f 0 0 := by
  rw [encodeFinite, normalizedResult_zero, clampExponent_zero, tc_zero]

theorem packBytes_zero (f : Format) : packBytes f 0 0 = List.replicate (params f).nbytes 0 := by
  cases f <;> rfl

theorem magnitude_of_zero_pattern {v : Binary64}
    (hv : v ∈ ([0x0000000000000000, 0x8000000000000000] : List Binary64)) : magnitude v = some .zero := by
  obtain rfl | rfl : v = 0x0000000000000000 ∨ v = 0x8000000000000000 := by simpa using hv
  · decide
  · decide

/-- Settles O15. -/
theorem zeroGivesZeroWord : Obligations.ZeroGivesZeroWord := by
  intro f v hv p
  have hmag := magnitude_of_zero_pattern hv
  refine ⟨hmag, rawMantissa_zero _, rfl, roundedMagnitude_zero f, normalizedResult_zero f, clampExponent_zero f,
    tc_zero _, encode1750_status_ok f hmag, ?_⟩
  rw [encode1750_finite f hmag, encodeFinite_zero, responseBytes_okResponse, packBytes_zero]

/-- Settles O20: an OK response is the encoding of a finite operand. -/
theorem successfulResultsNormalized : Obligations.SuccessfulResultsNormalized := by
  intro f v hok n m
  cases hmag : magnitude v with
  | none =>
    rw [encode1750_nonfinite f hmag] at hok
    cases hok
  | some mag =>
    rw [ne_eq, realValue_eq_zero_iff hmag]
    have hm : m = (normalizedResult (params f) (signBit v) mag).mantissa := mantissaField_encode1750 f hmag
    refine ⟨?_, fun hne => hm ▸ normalizedResult_top_bits f (signBit v) hmag hne⟩
    by_cases hzero : mag = .zero
    · rw [encode1750_finite f hmag, hzero, encodeFinite_zero_data]
      exact .inr rfl
    · obtain ⟨htop, hnext⟩ := normalizedResult_top_bits f (signBit v) hmag hzero
      rw [Normalized, hm, htop, hnext]
      exact .inl (Bool.self_ne_not _)

end Sys2Proof.Machine

/-! The conversion against exact rational arithmetic, step by step (40_encode.md rules R49 to R60), and the operations that
carry its answer into the queue (40_encode.md rules R63 to R65); O19, O26, O27, O28 and O35 from these. -/

namespace Sys2Proof.Machine

/-! ### The conversion is the exact encoding -/

theorem idealMagnitude_eq (f : Format) (mag : Magnitude) :
    idealMagnitude (params f).mantissaBits (fraction mag) (naturalExponent mag) =
      (((roundedMagnitude (params f) mag).mantissa : ℤ), (roundedMagnitude (params f) mag).exponent) := by
  rw [idealMagnitude, ← roundHalfUp_rawMantissa_eq_idealRound, roundedMagnitude]
  by_cases hcarry : roundHalfUp (rawMantissa (params f).mantissaBits mag) = 2 ^ ((params f).mantissaBits - 1)
  · rw [renormalize_carry _ hcarry, if_pos (mod_cast hcarry)]
    push_cast
    rfl
  · rw [renormalize_no_carry _ hcarry, if_neg (mod_cast hcarry)]

/-- The bit operations of steps 6 and 7 do to the field what exact arithmetic does to the number. -/
theorem idealResult_eq (f : Format) (negative : Bool) {v : Binary64} {mag : Magnitude}
    (hmag : magnitude v = some mag) :
    idealResult (params f).mantissaBits negative (fraction mag) (naturalExponent mag) =
      (sext (params f).mantissaBits (normalizedResult (params f) negative mag).mantissa,
        (normalizedResult (params f) negative mag).exponent) := by
  rw [idealResult, idealMagnitude_eq]
  dsimp only
  obtain ⟨rfl, ha, hm, he⟩ | ⟨hother, hm, he⟩ := normalizedResult_cases f negative hmag
  · rw [hm, he, if_pos rfl, if_pos (mod_cast ha)]
  · rw [hm, he]
    cases negative with
    | false => rfl
    | true => rw [if_pos rfl, if_pos rfl, if_neg (mod_cast fun ha => hother ⟨rfl, ha⟩)]

theorem isEncodingOf_encode1750 (f : Format) {v : Binary64} {mag : Magnitude} {x : ℚ} (hmag : magnitude v = some mag)
    (hx : realValue v = some x) : IsEncodingOf f (signBit v) x (encode1750 v (widthCode f)) := by
  refine ⟨fraction mag, naturalExponent mag, isFrexp_of_realValue hmag hx, encode1750_status_ok f hmag, ?_, ?_, ?_, ?_⟩
  · rw [encode1750_finite f hmag]
    exact okResponse_nbytes_toNat f _ _
  · rw [encode1750_finite f hmag]
    exact okResponse_zeroBelow f _ _
  · rw [mantissaField_encode1750 f hmag, idealResult_eq f _ hmag]
  · rw [sext_exponentField_encode1750 f hmag, idealResult_eq f _ hmag, clampExponent]

theorem exists_magnitude_of_realValue {v : Binary64} {x : ℚ} (hx : realValue v = some x) :
    ∃ mag, magnitude v = some mag := by
  obtain ⟨mag, hmag, _⟩ := Option.map_eq_some_iff.mp hx
  exact ⟨mag, hmag⟩

/-- Settles O19. -/
theorem conversionIsExactEncoding : Obligations.ConversionIsExactEncoding := by
  intro f v x hx
  obtain ⟨mag, hmag⟩ := exists_magnitude_of_realValue hx
  exact isEncodingOf_encode1750 f hmag hx

/-! ### The operations -/

/-- 70_reset_and_hazards.md rule R85 in the terms of `EdgeAdds`. -/
theorem clockEdge_edgeAdds (offer : Option Response) {s : State} (hrst : s.inputs.rst = false) :
    EdgeAdds s (clockEdge Config.timing offer s) (if s.inReady Config.timing then offer.toList else []) :=
  ⟨clockEdge_queue _ _ s hrst, clockEdge_delivered_eq_taken offer hrst, clockEdge_script _ _ s, clockEdge_cycle _ _ s⟩

theorem clockEdge_edgeAdds_of_ready (r : Response) {s : State} (hready : s.inReady Config.timing = true) :
    EdgeAdds s (clockEdge Config.timing (some r) s) [r] := by
  have hadds := clockEdge_edgeAdds (some r) ((inReady_iff _ s).mp hready).1
  rwa [hready] at hadds

theorem encode1750_of_biasedExponent_max (f : Format) {v : Binary64} (hbe : biasedExponent v = 2047) :
    encode1750 v (widthCode f) = { status := .nonfiniteInput, nbytes := 0, data := 0 } := by
  rw [encode1750_nonfinite f ((magnitude_eq_none v).mpr hbe)]
  rfl

theorem exists_isEncodingOf_encode1750 (f : Format) {v : Binary64} (hbe : biasedExponent v ≠ 2047) :
    ∃ x, realValue v = some x ∧ IsEncodingOf f (signBit v) x (encode1750 v (widthCode f)) := by
  obtain ⟨x, hx⟩ := Option.ne_none_iff_exists'.mp (mt (realValue_eq_none_iff v).mp hbe)
  exact ⟨x, hx, conversionIsExactEncoding f v x hx⟩

/-- 40_encode.md rules R63 to R65: in a ready cycle every operation adds the answer to its operand. -/
theorem completesIn (i : Instr) : CompletesIn i.format i i.operand := fun s hready =>
  ⟨_, encode1750 i.operand (widthCode i.format), exec_is_edge i s, clockEdge_edgeAdds_of_ready _ hready,
    encode1750_of_biasedExponent_max i.format, exists_isEncodingOf_encode1750 i.format⟩

theorem wordValue_of_fields {f : Format} {m xf : Nat} {i e : ℤ} (hm : sext (params f).mantissaBits m = i)
    (he : sext (params f).exponentBits xf = e) :
    wordValue f m xf = i * 2 ^ (e - ((params f).mantissaBits - 1)) := by
  rw [wordValue, hm, he]

/-- Settles O26. -/
theorem enc16Completes : Obligations.Enc16Completes := by
  refine ⟨fun v => decode_encode (.enc16 v), fun v => completesIn (.enc16 v), ?_, by decide⟩
  rw [wordValue_of_fields (i := 2 ^ 8) (e := 0) (by decide) (by decide)]
  norm_num [params]

/-- Settles O27. -/
theorem enc32Completes : Obligations.Enc32Completes := by
  refine ⟨fun v => decode_encode (.enc32 v), fun v => completesIn (.enc32 v), ?_, by decide⟩
  rw [wordValue_of_fields (i := 5 * 2 ^ 20) (e := 4) (by decide) (by decide)]
  norm_num [params]

/-- Settles O28. -/
theorem enc48Completes : Obligations.Enc48Completes := by
  refine ⟨fun v => decode_encode (.enc48 v), fun v => completesIn (.enc48 v), ?_, by decide⟩
  rw [wordValue_of_fields (i := -2 ^ 39) (e := 0) (by decide) (by decide)]
  norm_num [params]

/-- Settles O35. -/
theorem machineNeverStops : Obligations.MachineNeverStops :=
  ⟨fun s => ⟨_, step_eq_cycleEdge s⟩, fun i s => ⟨_, exec_is_edge i s⟩⟩

end Sys2Proof.Machine

/-! The value of a result (40_encode.md rules R67 and R69): the rounded fraction, scaled by what the clamp took from the
exponent; its error, and how it compares under a change of sign; O21 and O23 from these. -/

namespace Sys2Proof.Machine

/-! ### Rounding to the nearest integer, with a sign and a unit -/

/-- An integer as near as a half is no larger than the rounding of a non-negative number, ties away. -/
theorem abs_le_round_of_near {y : ℚ} (hy : 0 ≤ y) {k : ℤ} (hk : |y - k| ≤ 1 / 2) : |k| ≤ round y := by
  obtain ⟨hlo, hhi⟩ := abs_le.mp hk
  have hnonneg : 0 ≤ k := by
    have hlower : ((-1 : ℤ) : ℚ) < k := by push_cast; linarith
    have hint : -1 < k := Int.cast_lt.mp hlower
    omega
  rw [abs_of_nonneg hnonneg, round_eq, Int.le_floor]
  linarith

theorem abs_signed_sub (negative : Bool) (y k : ℚ) {unit : ℚ} (hunit : 0 ≤ unit) :
    |(if negative then -1 else 1) * (y * unit) - (if negative then -1 else 1) * k * unit| = |y - k| * unit := by
  rw [mul_assoc, ← mul_sub, ← sub_mul, abs_mul, abs_sign, one_mul, abs_mul, abs_of_nonneg hunit]

theorem abs_signed_mul (negative : Bool) (k : ℚ) {unit : ℚ} (hunit : 0 ≤ unit) :
    |(if negative then -1 else 1) * k * unit| = |k| * unit := by
  rw [mul_assoc, abs_mul, abs_sign, one_mul, abs_mul, abs_of_nonneg hunit]

theorem exists_signed_int (negative : Bool) (j : ℤ) : ∃ k : ℤ, (j : ℚ) = (if negative then -1 else 1) * k := by
  cases negative
  · exact ⟨j, by simp⟩
  · exact ⟨-j, by simp⟩

/-- Of the multiples of a unit, the rounded one is nearest, and of two equally near it is the larger in magnitude. -/
theorem signed_round_nearest (negative : Bool) {y unit : ℚ} (hy : 0 ≤ y) (hunit : 0 < unit) (j : ℤ) :
    |(if negative then -1 else 1) * (y * unit) - (if negative then -1 else 1) * round y * unit| ≤
        |(if negative then -1 else 1) * (y * unit) - j * unit| ∧
      (|(if negative then -1 else 1) * (y * unit) - j * unit| =
          |(if negative then -1 else 1) * (y * unit) - (if negative then -1 else 1) * round y * unit| →
        |j * unit| ≤ |(if negative then -1 else 1) * round y * unit|) := by
  obtain ⟨k, hk⟩ := exists_signed_int negative j
  rw [hk, abs_signed_sub negative _ _ hunit.le, abs_signed_sub negative _ _ hunit.le, abs_signed_mul negative _ hunit.le,
    abs_signed_mul negative _ hunit.le]
  refine ⟨mul_le_mul_of_nonneg_right (round_le y k) hunit.le, fun htie => ?_⟩
  have hnear : |y - k| ≤ 1 / 2 := (mul_right_cancel₀ hunit.ne' htie).trans_le (abs_sub_round y)
  have hlarger : |k| ≤ |round y| := (abs_le_round_of_near hy hnear).trans (le_abs_self _)
  exact mul_le_mul_of_nonneg_right (mod_cast hlarger) hunit.le

/-! ### The value of a result -/

/-- The operand rounded to N − 1 bits, before the clamp (40_encode.md rule R67). -/
def roundedValue (f : Format) (negative : Bool) (mag : Magnitude) : ℚ :=
  (if negative then -1 else 1) * ⌊fraction mag * 2 ^ ((params f).mantissaBits - 1) + 1 / 2⌋ *
    2 ^ (naturalExponent mag - (params f).mantissaBits + 1)

theorem roundedMagnitude_value (f : Format) (mag : Magnitude) :
    ((roundedMagnitude (params f) mag).mantissa : ℚ) * 2 ^ (roundedMagnitude (params f) mag).exponent =
      ⌊fraction mag * 2 ^ ((params f).mantissaBits - 1) + 1 / 2⌋ * 2 ^ naturalExponent mag := by
  have hround := roundHalfUp_rawMantissa_eq_idealRound f mag
  obtain ⟨hn, _⟩ := params_mantissaBits_range f
  rw [idealRound] at hround
  rw [← hround, roundedMagnitude, Int.cast_natCast]
  by_cases hcarry : roundHalfUp (rawMantissa (params f).mantissaBits mag) = 2 ^ ((params f).mantissaBits - 1)
  · rw [renormalize_carry _ hcarry, hcarry, (two_pow_eq_quarters hn).2, zpow_add_one₀ two_ne_zero]
    push_cast
    ring
  · rw [renormalize_no_carry _ hcarry]

theorem dataValue_encode1750 (f : Format) {v : Binary64} {mag : Magnitude} (hmag : magnitude v = some mag) :
    dataValue f (encode1750 v (widthCode f)).data =
      sext (params f).mantissaBits (normalizedResult (params f) (signBit v) mag).mantissa *
        2 ^ (clampExponent (params f) (normalizedResult (params f) (signBit v) mag).exponent -
          ((params f).mantissaBits - 1)) :=
  wordValue_of_fields (congrArg _ (mantissaField_encode1750 f hmag)) (sext_exponentField_encode1750 f hmag)

/-- 40_encode.md rule R67: neither the carry nor the loop changes the value, and the clamp scales it. -/
theorem dataValue_encode1750_eq_roundedValue (f : Format) {v : Binary64} {mag : Magnitude}
    (hmag : magnitude v = some mag) :
    dataValue f (encode1750 v (widthCode f)).data =
      roundedValue f (signBit v) mag *
        2 ^ (clampExponent (params f) (normalizedResult (params f) (signBit v) mag).exponent -
          (normalizedResult (params f) (signBit v) mag).exponent) := by
  have hvalue := normalizedResult_value f (signBit v) hmag
  rw [mul_assoc, roundedMagnitude_value] at hvalue
  rw [dataValue_encode1750 f hmag, roundedValue]
  generalize clampExponent (params f) (normalizedResult (params f) (signBit v) mag).exponent = clamped
  generalize normalizedResult (params f) (signBit v) mag = b at *
  have hclamped : (2 : ℚ) ^ (clamped - ((params f).mantissaBits - 1)) =
      2 ^ b.exponent * 2 ^ (clamped - b.exponent) * 2 ^ (1 - (params f).mantissaBits : ℤ) := by
    rw [← zpow_add₀ two_ne_zero, ← zpow_add₀ two_ne_zero]
    congr 1
    ring
  have hunit : (2 : ℚ) ^ (naturalExponent mag - (params f).mantissaBits + 1) =
      2 ^ naturalExponent mag * 2 ^ (1 - (params f).mantissaBits : ℤ) := by
    rw [← zpow_add₀ two_ne_zero]
    congr 1
    ring
  rw [hclamped, hunit]
  linear_combination hvalue * 2 ^ (clamped - b.exponent) * 2 ^ (1 - (params f).mantissaBits : ℤ)

/-- The operand in units of the last place of its rounding. -/
theorem eq_fraction_mul_unit (f : Format) {v : Binary64} {mag : Magnitude} {x : ℚ} (hmag : magnitude v = some mag)
    (hx : realValue v = some x) :
    x = (if signBit v then -1 else 1) * (fraction mag * 2 ^ ((params f).mantissaBits - 1) *
      2 ^ (naturalExponent mag - (params f).mantissaBits + 1)) := by
  obtain ⟨hn, _⟩ := params_mantissaBits_range f
  rw [eq_of_realValue hmag hx, mul_assoc (fraction mag), ← zpow_natCast, ← zpow_add₀ two_ne_zero,
    show (((params f).mantissaBits - 1 : ℕ) : ℤ) + (naturalExponent mag - (params f).mantissaBits + 1) =
      naturalExponent mag by omega]

theorem dataValue_of_fields {f : Format} {d : Data} {i e : ℤ} (hm : sext (params f).mantissaBits (mantissaField f d) = i)
    (he : sext (params f).exponentBits (exponentField f d) = e) :
    dataValue f d = i * 2 ^ (e - ((params f).mantissaBits - 1)) :=
  wordValue_of_fields hm he

/-- The example of 40_encode.md rule R67: 2^200 is far out of the range of the 32-bit format. -/
theorem dataValue_two_pow_200 : dataValue .w32 (encode1750 0x4C70000000000000 32).data = 1 / 2 * 2 ^ 127 := by
  rw [dataValue_of_fields (i := 2 ^ 22) (e := 127) (by decide) (by decide)]
  norm_num [params]

/-- Settles O21: in range the clamp scales by 1, and the value is the operand rounded to a multiple of the unit. -/
theorem accuracyLaw : Obligations.AccuracyLaw := by
  refine ⟨?_, dataValue_two_pow_200⟩
  intro f v mag x hmag hx p n e e1 ulp rounded val
  have hval : val = rounded * 2 ^ (clampExponent p e1 - e1) := dataValue_encode1750_eq_roundedValue f hmag
  refine ⟨fun hlo hhi => ?_, fun _ => hval⟩
  have hunits : x = (if signBit v then -1 else 1) * (fraction mag * 2 ^ (n - 1) * ulp) :=
    eq_fraction_mul_unit f hmag hx
  have hulp : 0 < ulp := zpow_pos two_pos _
  have hnonneg : 0 ≤ fraction mag * 2 ^ (n - 1) := mul_nonneg (fraction_nonneg mag) (by positivity)
  have hrounded : rounded = (if signBit v then -1 else 1) * round (fraction mag * 2 ^ (n - 1)) * ulp := by
    rw [round_eq]
  rw [clampExponent_of_mem f hlo hhi, sub_self, zpow_zero, mul_one] at hval
  refine ⟨hval, ?_, fun j => ?_⟩
  · rw [hval, hrounded, hunits, abs_sub_comm, abs_signed_sub _ _ _ hulp.le, div_eq_mul_one_div, mul_comm ulp]
    exact mul_le_mul_of_nonneg_right (abs_sub_round _) hulp.le
  · rw [hval, hrounded, hunits]
    exact signed_round_nearest (signBit v) hnonneg hulp j

/-! ### The encodings of a number and of its negation -/

/-- The pattern with the sign bit set. -/
def negated (v : Binary64) : Binary64 := v ||| 0x8000000000000000

theorem signBit_negated (v : Binary64) : signBit (negated v) = true := by
  rw [signBit, negated, BitVec.getLsbD_or, Bool.or_eq_true]
  exact .inr (by decide)

theorem biasedExponent_negated (v : Binary64) : biasedExponent (negated v) = biasedExponent v := by
  rw [biasedExponent, negated, BitVec.extractLsb'_or,
    show BitVec.extractLsb' 52 11 (0x8000000000000000 : Binary64) = 0#_ by decide, BitVec.or_zero, biasedExponent]

theorem trailingSignificand_negated (v : Binary64) : trailingSignificand (negated v) = trailingSignificand v := by
  rw [trailingSignificand, negated, BitVec.extractLsb'_or,
    show BitVec.extractLsb' 0 52 (0x8000000000000000 : Binary64) = 0#_ by decide, BitVec.or_zero, trailingSignificand]

theorem magnitude_negated (v : Binary64) : magnitude (negated v) = magnitude v := by
  simp only [magnitude, classify, biasedExponent_negated, trailingSignificand_negated]

theorem realValue_negated {v : Binary64} {mag : Magnitude} {x : ℚ} (hsign : signBit v = false)
    (hmag : magnitude v = some mag) (hx : realValue v = some x) : realValue (negated v) = some (-x) := by
  rw [realValue_of_magnitude ((magnitude_negated v).trans hmag), signBit_negated, eq_of_realValue hmag hx, hsign,
    magnitudeValue_eq]
  simp

/-- The clamp keeps the distance between neighbours exactly where it acts on neither. -/
theorem clampExponent_step_iff (f : Format) (e : Int) :
    clampExponent (params f) e = clampExponent (params f) (e - 1) + 1 ↔
      (params f).emin ≤ e - 1 ∧ e ≤ (params f).emax := by
  obtain ⟨_, _, _, hmin, hmax⟩ := params_exponent_range f
  rw [clampExponent, clampExponent]
  omega

/-- The mantissas of a power of two and of its negation differ by a factor of two, which one exponent makes up for. -/
theorem quarter_mul_zpow_eq_iff {n : Nat} (hn : 2 ≤ n) (e k c : ℤ) :
    ((2 ^ (n - 2) : ℤ) : ℚ) * 2 ^ (e - c) = -(((-2 ^ (n - 1) : ℤ) : ℚ) * 2 ^ (k - c)) ↔ e = k + 1 := by
  have hhalf : (2 : ℚ) ^ (n - 1) = 2 * 2 ^ (n - 2) := mod_cast (two_pow_eq_quarters hn).2
  have hright : -(((-2 ^ (n - 1) : ℤ) : ℚ) * 2 ^ (k - c)) = 2 ^ (n - 2) * 2 ^ (k + 1 - c) := by
    rw [add_sub_right_comm, zpow_add_one₀ two_ne_zero]
    push_cast
    rw [hhalf]
    ring
  rw [hright, Int.cast_pow, Int.cast_ofNat, mul_right_inj' (by positivity),
    (zpow_right_injective₀ two_pos (by norm_num)).eq_iff, sub_left_inj]

/-- The two results for a magnitude that is no power of two after rounding. -/
theorem fields_negated_of_not_power (f : Format) {v : Binary64} {mag : Magnitude} (hsign : signBit v = false)
    (hmag : magnitude v = some mag)
    (ha : (roundedMagnitude (params f) mag).mantissa ≠ 2 ^ ((params f).mantissaBits - 2)) :
    sext (params f).mantissaBits (mantissaField f (encode1750 (negated v) (widthCode f)).data) =
        -sext (params f).mantissaBits (mantissaField f (encode1750 v (widthCode f)).data) ∧
      exponentField f (encode1750 (negated v) (widthCode f)).data =
        exponentField f (encode1750 v (widthCode f)).data := by
  have hmag' := (magnitude_negated v).trans hmag
  obtain ⟨hn, _⟩ := params_mantissaBits_range f
  have hlt := roundedMagnitude_lt f hmag
  rw [mantissaField_encode1750 f hmag, mantissaField_encode1750 f hmag', exponentField_encode1750 f hmag,
    exponentField_encode1750 f hmag', signBit_negated, hsign, normalizedResult_other f hmag fun h => ha h.2,
    normalizedResult_other f hmag fun h => ha h.2]
  rw [sext_applySign true hn hlt, sext_applySign false hn hlt]
  exact ⟨rfl, rfl⟩

/-- The two results for a magnitude that is a power of two after rounding. -/
theorem fields_negated_of_power (f : Format) {v : Binary64} {mag : Magnitude} (hsign : signBit v = false)
    (hmag : magnitude v = some mag)
    (ha : (roundedMagnitude (params f) mag).mantissa = 2 ^ ((params f).mantissaBits - 2)) :
    mantissaField f (encode1750 v (widthCode f)).data = 2 ^ ((params f).mantissaBits - 2) ∧
      sext (params f).exponentBits (exponentField f (encode1750 v (widthCode f)).data) =
        clampExponent (params f) (roundedMagnitude (params f) mag).exponent ∧
      mantissaField f (encode1750 (negated v) (widthCode f)).data = 2 ^ ((params f).mantissaBits - 1) ∧
      sext (params f).exponentBits (exponentField f (encode1750 (negated v) (widthCode f)).data) =
        clampExponent (params f) ((roundedMagnitude (params f) mag).exponent - 1) := by
  have hmag' := (magnitude_negated v).trans hmag
  rw [mantissaField_encode1750 f hmag, mantissaField_encode1750 f hmag', sext_exponentField_encode1750 f hmag,
    sext_exponentField_encode1750 f hmag', signBit_negated, hsign, normalizedResult_negated_power f ha,
    normalizedResult_other f hmag fun h => Bool.false_ne_true h.1]
  exact ⟨ha, rfl, rfl, rfl⟩

theorem dataValue_negated_iff_of_power (f : Format) {v : Binary64} {mag : Magnitude} (hsign : signBit v = false)
    (hmag : magnitude v = some mag)
    (ha : (roundedMagnitude (params f) mag).mantissa = 2 ^ ((params f).mantissaBits - 2)) :
    dataValue f (encode1750 v (widthCode f)).data = -dataValue f (encode1750 (negated v) (widthCode f)).data ↔
      (params f).emin ≤ (roundedMagnitude (params f) mag).exponent - 1 ∧
        (roundedMagnitude (params f) mag).exponent ≤ (params f).emax := by
  obtain ⟨hn, _⟩ := params_mantissaBits_range f
  obtain ⟨hdouble, _⟩ := two_pow_eq_quarters hn
  obtain ⟨hmp, hep, hmn, hen⟩ := fields_negated_of_power f hsign hmag ha
  have hsextp : sext (params f).mantissaBits (mantissaField f (encode1750 v (widthCode f)).data) =
      2 ^ ((params f).mantissaBits - 2) := by
    rw [hmp, sext_of_lt (Nat.pow_lt_pow_right one_lt_two (by omega))]
    push_cast
    rfl
  have hsextn : sext (params f).mantissaBits (mantissaField f (encode1750 (negated v) (widthCode f)).data) =
      -2 ^ ((params f).mantissaBits - 1) := by
    rw [hmn, sext_top_bit (by omega)]
  rw [dataValue_of_fields hsextp hep, dataValue_of_fields hsextn hen, quarter_mul_zpow_eq_iff hn, clampExponent_step_iff]

/-- The examples of 40_encode.md rule R69, ±2^127 and ±2^−129 in the 32-bit format. -/
theorem dataValue_power_examples :
    dataValue .w32 (encode1750 0x47E0000000000000 32).data = 2 ^ 126 ∧
    dataValue .w32 (encode1750 0xC7E0000000000000 32).data = -2 ^ 127 ∧
    dataValue .w32 (encode1750 0x37E0000000000000 32).data = 2 ^ (-129 : ℤ) ∧
    dataValue .w32 (encode1750 0xB7E0000000000000 32).data = -2 ^ (-128 : ℤ) := by
  refine ⟨?_, ?_, ?_, ?_⟩
  · rw [dataValue_of_fields (i := 2 ^ 22) (e := 127) (by decide) (by decide)]
    norm_num [params]
  · rw [dataValue_of_fields (i := -2 ^ 23) (e := 127) (by decide) (by decide)]
    norm_num [params]
  · rw [dataValue_of_fields (i := 2 ^ 22) (e := -128) (by decide) (by decide)]
    norm_num [params]
  · rw [dataValue_of_fields (i := -2 ^ 23) (e := -128) (by decide) (by decide)]
    norm_num [params]

/-- Settles O23. -/
theorem signLaw : Obligations.SignLaw := by
  refine ⟨?_, dataValue_power_examples⟩
  intro f v mag x hsign hmag _ hx p n a w dp dn
  refine ⟨realValue_negated hsign hmag hx, fields_negated_of_not_power f hsign hmag,
    fields_negated_of_power f hsign hmag, ?_⟩
  by_cases ha : a.mantissa = 2 ^ (n - 2)
  · rw [or_iff_right (not_not_intro ha)]
    exact dataValue_negated_iff_of_power f hsign hmag ha
  · obtain ⟨hm, he⟩ : sext n (mantissaField f dn) = -sext n (mantissaField f dp) ∧
        exponentField f dn = exponentField f dp := fields_negated_of_not_power f hsign hmag ha
    refine iff_of_true ?_ (.inl ha)
    rw [dataValue_of_fields hm (congrArg _ he), dataValue_of_fields rfl rfl]
    push_cast
    ring

end Sys2Proof.Machine

/-! Normalized words and the numbers they stand for (40_encode.md rule R68): such a word is the only one of its value, a
binary64 pattern has that value, and rounding it drops nothing; O22 from these. -/

namespace Sys2Proof.Machine

/-! ### Normalized mantissas as signed integers -/

/-- The integers that the normalized mantissa fields of N bits stand for. -/
def NormalizedInt (n : Nat) (i : ℤ) : Prop :=
  (2 ^ (n - 2) ≤ i ∧ i < 2 ^ (n - 1)) ∨ (-2 ^ (n - 1) ≤ i ∧ i < -2 ^ (n - 2))

theorem normalizedInt_sext {f : Format} {m : Nat} (hm : m < 2 ^ (params f).mantissaBits) (hnorm : Normalized f m) :
    NormalizedInt (params f).mantissaBits (sext (params f).mantissaBits m) := by
  obtain ⟨hn, _⟩ := params_mantissaBits_range f
  rw [Normalized] at hnorm
  generalize (params f).mantissaBits = n at *
  obtain ⟨hfull, hhalf⟩ := two_pow_eq_quarters hn
  have hhalf' : (2 : ℤ) ^ (n - 1) = 2 * 2 ^ (n - 2) := mod_cast hhalf
  rcases lt_or_ge m (2 ^ (n - 1)) with hlow | hhigh
  · have hquarter : 2 ^ (n - 2) ≤ m := by
      by_contra hlt
      obtain ⟨htop, hnext⟩ := top_bits_of_quarter (m := m) (q := 0) hn (by omega) (by omega)
      exact hnorm (htop.trans hnext.symm)
    rw [sext_of_lt hlow]
    exact .inl ⟨mod_cast hquarter, mod_cast hlow⟩
  · have hquarter : m < 3 * 2 ^ (n - 2) := by
      by_contra hge
      obtain ⟨htop, hnext⟩ := top_bits_of_quarter (m := m) (q := 3) hn (by omega) (by omega)
      exact hnorm (htop.trans hnext.symm)
    have hfull' : (2 : ℤ) ^ n = 4 * 2 ^ (n - 2) := mod_cast hfull
    rw [sext_of_le (by omega) hhigh hm]
    zify at hhigh hquarter
    exact .inr ⟨by omega, by omega⟩

theorem NormalizedInt.natAbs_range {n : Nat} {i : ℤ} (hn : 2 ≤ n) (hi : NormalizedInt n i) :
    2 ^ (n - 2) ≤ i.natAbs ∧ i.natAbs ≤ 2 ^ (n - 1) := by
  have hhalf : (2 : ℤ) ^ (n - 1) = 2 * 2 ^ (n - 2) := mod_cast (two_pow_eq_quarters hn).2
  have hpos : (0 : ℤ) < 2 ^ (n - 2) := pow_pos two_pos _
  rw [NormalizedInt] at hi
  zify
  rw [le_abs, abs_le]
  omega

theorem NormalizedInt.exponent_le {n : Nat} {i j e k : ℤ} (hn : 2 ≤ n) (hi : NormalizedInt n i) (hj : NormalizedInt n j)
    (heq : (i : ℚ) * 2 ^ e = j * 2 ^ k) : k ≤ e := by
  by_contra hlt
  obtain ⟨d, hd⟩ : ∃ d : ℕ, k = d + 1 + e := ⟨(k - e - 1).toNat, by omega⟩
  rw [hd, zpow_add₀ two_ne_zero, ← mul_assoc, mul_left_inj' (zpow_ne_zero e two_ne_zero)] at heq
  have hscaled : i = j * 2 ^ (d + 1) := mod_cast heq
  have hfactor : (2 : ℤ) ≤ 2 ^ (d + 1) := by
    have hpow : (0 : ℤ) < 2 ^ d := pow_pos two_pos d
    rw [pow_succ]
    omega
  have hhalf : (2 : ℤ) ^ (n - 1) = 2 * 2 ^ (n - 2) := mod_cast (two_pow_eq_quarters hn).2
  have hpos : (0 : ℤ) < 2 ^ (n - 2) := pow_pos two_pos _
  rcases hj with ⟨hlo, _⟩ | ⟨_, hhi⟩
  · have hdouble : j * 2 ≤ j * 2 ^ (d + 1) := mul_le_mul_of_nonneg_left hfactor (by omega)
    rcases hi with ⟨_, hi⟩ | ⟨_, hi⟩ <;> omega
  · have hdouble : j * 2 ^ (d + 1) ≤ j * 2 := mul_le_mul_of_nonpos_left hfactor (by omega)
    rcases hi with ⟨hi, _⟩ | ⟨hi, _⟩ <;> omega

/-- A number has one normalized mantissa and exponent. -/
theorem NormalizedInt.unique {n : Nat} {i j e k : ℤ} (hn : 2 ≤ n) (hi : NormalizedInt n i) (hj : NormalizedInt n j)
    (heq : (i : ℚ) * 2 ^ e = j * 2 ^ k) : i = j ∧ e = k := by
  obtain rfl : e = k := le_antisymm (hj.exponent_le hn hi heq.symm) (hi.exponent_le hn hj heq)
  rw [mul_left_inj' (zpow_ne_zero e two_ne_zero)] at heq
  exact ⟨mod_cast heq, rfl⟩

/-! ### A pattern with the value of a word -/

/-- The leading bit of the significand adds to the exponent field, and so does the carry out of it. -/
theorem scaledPattern_add {d c : Nat} (hlo : 2 ^ 52 ≤ c) (hhi : c ≤ 2 ^ 53) :
    scaledPattern (d * 2 ^ 52 + c) = c * 2 ^ d := by
  rw [scaledPattern_of_le (by omega)]
  rcases hhi.lt_or_eq with hlt | rfl
  · rw [show (d * 2 ^ 52 + c) / 2 ^ 52 - 1 = d by omega, show 2 ^ 52 + (d * 2 ^ 52 + c) % 2 ^ 52 = c by omega]
  · rw [show (d * 2 ^ 52 + 2 ^ 53) / 2 ^ 52 - 1 = d + 1 by omega, show (d * 2 ^ 52 + 2 ^ 53) % 2 ^ 52 = 0 by omega]
    ring

theorem exists_pattern_of_normalized {n k : Nat} {e : ℤ} (hn : 2 ≤ n) (hn53 : n ≤ 53) (hlo : 2 ^ (n - 2) ≤ k)
    (hhi : k ≤ 2 ^ (n - 1)) (hemin : -128 ≤ e) (hemax : e ≤ 127) :
    ∃ b ≤ maxFinitePattern, patternValue b = k * 2 ^ (e - (n - 1)) := by
  obtain ⟨d, hd⟩ : ∃ d : ℕ, (d : ℤ) = e + 1021 := ⟨(e + 1021).toNat, by omega⟩
  have hclo : 2 ^ 52 ≤ k * 2 ^ (54 - n) :=
    calc 2 ^ 52 = 2 ^ (n - 2) * 2 ^ (54 - n) := by rw [← pow_add]; congr 1; omega
      _ ≤ k * 2 ^ (54 - n) := Nat.mul_le_mul_right _ hlo
  have hchi : k * 2 ^ (54 - n) ≤ 2 ^ 53 :=
    calc k * 2 ^ (54 - n) ≤ 2 ^ (n - 1) * 2 ^ (54 - n) := Nat.mul_le_mul_right _ hhi
      _ = 2 ^ 53 := by rw [← pow_add]; congr 1; omega
  refine ⟨d * 2 ^ 52 + k * 2 ^ (54 - n), ?_, ?_⟩
  · rw [maxFinitePattern]
    omega
  · rw [patternValue, scaledPattern_add hclo hchi, div_eq_iff (by positivity)]
    push_cast
    rw [mul_assoc, mul_assoc, ← zpow_natCast, ← zpow_natCast, ← zpow_natCast, ← zpow_add₀ two_ne_zero,
      ← zpow_add₀ two_ne_zero]
    congr 2
    omega

theorem sext_exponent_range (f : Format) {xf : Nat} (hxf : xf < 2 ^ (params f).exponentBits) :
    (params f).emin ≤ sext (params f).exponentBits xf ∧ sext (params f).exponentBits xf ≤ (params f).emax := by
  obtain ⟨hbits, hmin, hmax, _⟩ := params_exponent_range f
  obtain ⟨hlo, hhi⟩ := sext_mem_range hbits hxf
  omega

theorem params_exponent_widest (f : Format) : -128 ≤ (params f).emin ∧ (params f).emax ≤ 127 := by
  cases f <;> decide

theorem int_eq_sign_mul_natAbs (i : ℤ) : (i : ℚ) = (if decide (i < 0) then -1 else 1) * (i.natAbs : ℚ) := by
  rw [Nat.cast_natAbs]
  rcases lt_or_ge i 0 with hneg | hnonneg
  · rw [decide_eq_true hneg, if_pos rfl, abs_of_neg hneg]
    simp
  · rw [decide_eq_false (not_lt.mpr hnonneg), if_neg Bool.false_ne_true, abs_of_nonneg hnonneg, one_mul]

theorem exists_realValue_eq_wordValue {f : Format} {m xf : Nat} (hm : m < 2 ^ (params f).mantissaBits)
    (hxf : xf < 2 ^ (params f).exponentBits) (hnorm : Normalized f m) :
    ∃ v, realValue v = some (wordValue f m xf) := by
  obtain ⟨hn, hn53⟩ := params_mantissaBits_range f
  obtain ⟨hlo, hhi⟩ := (normalizedInt_sext hm hnorm).natAbs_range hn
  obtain ⟨hemin, hemax⟩ := sext_exponent_range f hxf
  obtain ⟨hmin, hmax⟩ := params_exponent_widest f
  obtain ⟨b, hb, hvalue⟩ := exists_pattern_of_normalized hn hn53 hlo hhi (hmin.trans hemin) (hemax.trans hmax)
  refine ⟨_, (realValue_signedPattern (decide (sext (params f).mantissaBits m < 0)) hb).trans ?_⟩
  rw [hvalue, wordValue, ← mul_assoc, ← int_eq_sign_mul_natAbs]

/-! ### The encoding of a normalized word's value -/

/-- The fraction of a number with a normalized mantissa ends within the mantissa. -/
theorem NormalizedInt.exists_isFrexp {n : Nat} {i : ℤ} (hn : 2 ≤ n) (hi : NormalizedInt n i) (e : ℤ) :
    ∃ (k : ℕ) (c : ℤ), IsFrexp (i * 2 ^ (e - (n - 1))) (k / 2 ^ (n - 1)) c := by
  obtain ⟨hlo, hhi⟩ := hi.natAbs_range hn
  have hhalf := (two_pow_eq_quarters hn).2
  have hne : (i : ℚ) * 2 ^ (e - (n - 1)) ≠ 0 := by
    have hpos : 0 < 2 ^ (n - 2) := Nat.two_pow_pos _
    have hi0 : i ≠ 0 := by omega
    positivity
  have habs : |(i : ℚ) * 2 ^ (e - (n - 1))| = i.natAbs / 2 ^ (n - 1) * 2 ^ e := by
    rw [abs_mul, abs_of_pos (zpow_pos two_pos _ : (0 : ℚ) < 2 ^ (e - (n - 1))), Nat.cast_natAbs, Int.cast_abs,
      zpow_sub₀ two_ne_zero, show (n : ℤ) - 1 = (n - 1 : ℕ) by omega, zpow_natCast, div_mul_eq_mul_div, mul_div_assoc]
  rcases hhi.lt_or_eq with hlt | hpower
  · refine ⟨i.natAbs, e, .inr ⟨hne, habs, ?_, ?_⟩⟩
    · rw [div_le_div_iff₀ two_pos (by positivity)]
      norm_cast
      omega
    · rw [div_lt_one (by positivity)]
      exact_mod_cast hlt
  · have hfraction : ((2 ^ (n - 2) : ℕ) : ℚ) / 2 ^ (n - 1) = 1 / 2 := by
      rw [div_eq_div_iff (by positivity) two_ne_zero]
      norm_cast
      omega
    refine ⟨2 ^ (n - 2), e + 1, .inr ⟨hne, habs.trans ?_, hfraction.ge, ?_⟩⟩
    · rw [hfraction, hpower, zpow_add_one₀ two_ne_zero, Nat.cast_pow, Nat.cast_ofNat, div_self (by positivity)]
      ring
    · rw [hfraction]
      exact one_half_lt_one

theorem floor_natCast_add_half (k : ℕ) : ⌊(k : ℚ) + 1 / 2⌋ = k := by
  rw [Int.floor_natCast_add]
  norm_num

/-- Where the fraction ends within the mantissa, the result before the clamp has the operand's value. -/
theorem normalizedResult_value_of_exact (f : Format) {v : Binary64} {mag : Magnitude} {x : ℚ} {k : ℕ}
    (hmag : magnitude v = some mag) (hx : realValue v = some x)
    (hk : fraction mag = k / 2 ^ ((params f).mantissaBits - 1)) :
    (sext (params f).mantissaBits (normalizedResult (params f) (signBit v) mag).mantissa : ℚ) *
        2 ^ (normalizedResult (params f) (signBit v) mag).exponent =
      x * 2 ^ ((params f).mantissaBits - 1) := by
  have hexact : fraction mag * 2 ^ ((params f).mantissaBits - 1) = k := by
    rw [hk, div_mul_cancel₀ _ (by positivity)]
  rw [normalizedResult_value f _ hmag, mul_assoc, roundedMagnitude_value, hexact, floor_natCast_add_half,
    eq_of_realValue hmag hx, Int.cast_natCast, ← hexact]
  ring

theorem normalizedInt_normalizedResult (f : Format) (negative : Bool) {v : Binary64} {mag : Magnitude}
    (hmag : magnitude v = some mag) (hne : mag ≠ .zero) :
    NormalizedInt (params f).mantissaBits
      (sext (params f).mantissaBits (normalizedResult (params f) negative mag).mantissa) := by
  refine normalizedInt_sext (normalizedResult_mantissa_lt f negative hmag) ?_
  obtain ⟨htop, hnext⟩ := normalizedResult_top_bits f negative hmag hne
  rw [Normalized, htop, hnext]
  exact Bool.self_ne_not negative

theorem wordValue_ne_zero {f : Format} {m : Nat} (xf : Nat) (hm : m < 2 ^ (params f).mantissaBits)
    (hnorm : Normalized f m) : wordValue f m xf ≠ 0 := by
  obtain ⟨hlo, _⟩ := (normalizedInt_sext hm hnorm).natAbs_range (params_mantissaBits_range f).1
  have hpos : 0 < 2 ^ ((params f).mantissaBits - 2) := Nat.two_pow_pos _
  have hsext : sext (params f).mantissaBits m ≠ 0 := by omega
  exact mul_ne_zero (mod_cast hsext) (zpow_ne_zero _ two_ne_zero)

theorem wordValue_mul_two_pow (f : Format) (m xf : Nat) :
    wordValue f m xf * 2 ^ ((params f).mantissaBits - 1) =
      sext (params f).mantissaBits m * 2 ^ sext (params f).exponentBits xf := by
  obtain ⟨hn, _⟩ := params_mantissaBits_range f
  rw [wordValue, mul_assoc, ← zpow_natCast, ← zpow_add₀ two_ne_zero]
  congr 2
  omega

/-- The operand's value has one normalized form, which the word and the result before the clamp both are. -/
theorem normalizedResult_of_wordValue {f : Format} {m xf : Nat} {v : Binary64} {mag : Magnitude}
    (hm : m < 2 ^ (params f).mantissaBits) (hnorm : Normalized f m) (hmag : magnitude v = some mag)
    (hx : realValue v = some (wordValue f m xf)) :
    normalizedResult (params f) (signBit v) mag =
      { mantissa := m, exponent := sext (params f).exponentBits xf } := by
  obtain ⟨hn, _⟩ := params_mantissaBits_range f
  have hne : mag ≠ .zero := fun hzero =>
    wordValue_ne_zero xf hm hnorm (Option.some.inj (hx.symm.trans ((realValue_eq_zero_iff hmag).mpr hzero)))
  have hword := normalizedInt_sext hm hnorm
  have hresult := normalizedInt_normalizedResult f (signBit v) hmag hne
  obtain ⟨k, c, hfrexp⟩ := hword.exists_isFrexp hn (sext (params f).exponentBits xf)
  have hk : fraction mag = k / 2 ^ ((params f).mantissaBits - 1) :=
    (hfrexp.unique (isFrexp_of_realValue hmag hx)).1
  obtain ⟨hmantissa, hexponent⟩ := hresult.unique hn hword
    ((normalizedResult_value_of_exact f hmag hx hk).trans (wordValue_mul_two_pow f m xf))
  have htc := congrArg (tc (params f).mantissaBits) hmantissa
  rw [tc_sext (normalizedResult_mantissa_lt f _ hmag), tc_sext hm] at htc
  rw [← htc, ← hexponent]

theorem encode1750_of_wordValue {f : Format} {m xf : Nat} {v : Binary64} (hm : m < 2 ^ (params f).mantissaBits)
    (hxf : xf < 2 ^ (params f).exponentBits) (hnorm : Normalized f m)
    (hx : realValue v = some (wordValue f m xf)) : encode1750 v (widthCode f) = okResponse f m xf := by
  obtain ⟨mag, hmag⟩ := exists_magnitude_of_realValue hx
  obtain ⟨hlo, hhi⟩ := sext_exponent_range f hxf
  rw [encode1750_finite f hmag, encodeFinite, normalizedResult_of_wordValue hm hnorm hmag hx,
    clampExponent_of_mem f hlo hhi, tc_sext hxf]

/-! ### The zero word -/

theorem wordValue_zero (f : Format) : wordValue f 0 0 = 0 := by
  rw [wordValue, sext_of_lt (Nat.two_pow_pos _), Nat.cast_zero, Int.cast_zero, zero_mul]

theorem encode1750_of_realValue_zero (f : Format) {v : Binary64} (hx : realValue v = some 0) :
    encode1750 v (widthCode f) = okResponse f 0 0 := by
  obtain ⟨mag, hmag⟩ := exists_magnitude_of_realValue hx
  rw [encode1750_finite f hmag, (realValue_eq_zero_iff hmag).mp hx, encodeFinite_zero]

/-- Settles O22. -/
theorem roundTripLaw : Obligations.RoundTripLaw := by
  intro f m xf hm hxf hword
  rcases hword with hnorm | ⟨rfl, rfl⟩
  · exact ⟨exists_realValue_eq_wordValue hm hxf hnorm, fun v hx => encode1750_of_wordValue hm hxf hnorm hx⟩
  · rw [wordValue_zero]
    have hmag : magnitude 0 = some .zero := by decide
    exact ⟨⟨0, (realValue_eq_zero_iff hmag).mpr rfl⟩, fun v hx => encode1750_of_realValue_zero f hx⟩

end Sys2Proof.Machine

/-! The two-word datapath of 40_encode.md rule R62: every step on the two words of a mantissa gives the two words of what the
single-integer step gives; O25 from these. -/

namespace Sys2Proof.Machine

/-! ### The two words of a mantissa -/

theorem splitWords_eq (m : Nat) : splitWords m = { high := m / 2 ^ 16 % 2 ^ 24, low := m % 2 ^ 16 } := by
  rw [splitWords, slice_eq, slice_eq, pow_zero, Nat.div_one]

theorem splitWords_mod (m : Nat) : splitWords (m % 2 ^ 40) = splitWords m := by
  rw [splitWords_eq, splitWords_eq, SplitMantissa.mk.injEq]
  omega

theorem splitWords_high_testBit (m : Nat) {i : Nat} (hi : i < 24) :
    (splitWords m).high.testBit i = m.testBit (16 + i) := by
  rw [splitWords, slice, Nat.testBit_mod_two_pow, Nat.testBit_shiftRight, decide_eq_true hi, Bool.true_and]

/-! ### The primitive operations -/

theorem splitAddBit_splitWords (m b : Nat) : splitAddBit (splitWords m) b = splitWords (m + b) := by
  rw [splitAddBit, splitWords_eq, splitWords_eq, SplitMantissa.mk.injEq]
  dsimp only
  omega

theorem splitShiftRight_splitWords {m : Nat} (hm : m < 2 ^ 40) :
    splitShiftRight (splitWords m) = splitWords (m >>> 1) := by
  rw [splitShiftRight, splitWords_eq, splitWords_eq, SplitMantissa.mk.injEq]
  simp only [Nat.shiftRight_one, Nat.shiftLeft_eq]
  omega

theorem splitShiftLeft_splitWords (m : Nat) : splitShiftLeft (splitWords m) = splitWords (m <<< 1) := by
  rw [splitShiftLeft, splitWords_eq, splitWords_eq, SplitMantissa.mk.injEq]
  simp only [Nat.shiftRight_eq_div_pow, Nat.shiftLeft_eq]
  omega

theorem splitNegate_splitWords {m : Nat} (hm : m < 2 ^ 40) :
    splitNegate (splitWords m) = splitWords (applySign 40 true m) := by
  have hcomplement : { high := complement 24 (splitWords m).high, low := complement 16 (splitWords m).low } =
      splitWords (complement 40 m) := by
    rw [splitWords_eq, splitWords_eq, SplitMantissa.mk.injEq, complement, complement, complement]
    dsimp only
    omega
  rw [splitNegate, hcomplement, splitAddBit_splitWords, applySign, if_pos rfl, splitWords_mod]

/-! ### The steps of the conversion -/

/-- A mantissa and its exponent as the two-word datapath holds them. -/
def splitScaled (a : Scaled) : SplitMantissa × Int := (splitWords a.mantissa, a.exponent)

theorem splitRound_eq {mag : Magnitude} (hraw : rawMantissa 40 mag < 2 ^ 40) :
    splitRound mag = splitWords (roundHalfUp (rawMantissa 40 mag)) := by
  have hbit : (splitWords (rawMantissa 40 mag)).low % 2 = rawMantissa 40 mag % 2 := by
    rw [splitWords_eq]
    exact Nat.mod_mod_of_dvd _ (by decide)
  rw [splitRound, hbit, splitShiftRight_splitWords hraw, splitAddBit_splitWords, roundHalfUp]

/-- The carry out of 39 bits is the top bit of the high word. -/
theorem splitRenormalize_splitWords {m0 : Nat} (e : Int) (hm0 : m0 ≤ 2 ^ 39) :
    splitRenormalize (splitWords m0) e = splitScaled (renormalize 40 m0 e) := by
  rw [splitRenormalize, splitWords_high_testBit m0 (by decide)]
  rcases hm0.lt_or_eq with hlt | rfl
  · rw [Nat.testBit_lt_two_pow hlt, renormalize_no_carry e hlt.ne]
    rfl
  · rw [Nat.testBit_two_pow_self, renormalize_carry e rfl, splitShiftRight_splitWords (by decide),
      two_pow_shiftRight_one (n := 40) (by decide)]
    rfl

theorem splitNormalizeLoop_splitScaled (fuel : Nat) (a : Scaled) :
    splitNormalizeLoop fuel (splitScaled a) = splitScaled (normalizeLoop 40 fuel a) := by
  induction fuel generalizing a with
  | zero => rfl
  | succ fuel ih =>
    have htop : (splitWords a.mantissa).high.testBit 23 = a.mantissa.testBit (40 - 1) :=
      splitWords_high_testBit _ (by decide)
    have hnext : (splitWords a.mantissa).high.testBit 22 = a.mantissa.testBit (40 - 2) :=
      splitWords_high_testBit _ (by decide)
    rw [splitNormalizeLoop, normalizeLoop_succ, splitScaled, htop, hnext, splitShiftLeft_splitWords, ← splitWords_mod]
    by_cases hboth : (a.mantissa.testBit (40 - 1) && a.mantissa.testBit (40 - 2)) = true
    · rw [if_pos hboth, if_pos hboth, ← ih, splitScaled]
    · rw [if_neg hboth, if_neg hboth, splitScaled]

theorem splitSign_splitWords (negative : Bool) {m : Nat} (hm : m < 2 ^ 40) :
    (if negative then splitNegate (splitWords m) else splitWords m) = splitWords (applySign 40 negative m) := by
  cases negative with
  | false => rfl
  | true => exact splitNegate_splitWords hm

theorem splitRoundedMagnitude_eq {v : Binary64} {mag : Magnitude} (hmag : magnitude v = some mag) :
    splitRenormalize (splitRound mag) (naturalExponent mag) = splitScaled (roundedMagnitude (params .w48) mag) := by
  have hraw : rawMantissa 40 mag < 2 ^ 40 := rawMantissa_lt .w48 hmag
  have hround : roundHalfUp (rawMantissa 40 mag) ≤ 2 ^ 39 := roundHalfUp_rawMantissa_le .w48 hmag
  rw [splitRound_eq hraw, splitRenormalize_splitWords _ hround, roundedMagnitude, params]

theorem splitResult_eq (negative : Bool) {v : Binary64} {mag : Magnitude} (hmag : magnitude v = some mag) :
    splitResult negative mag = splitScaled (normalizedResult (params .w48) negative mag) := by
  have hmagnitude : (roundedMagnitude (params .w48) mag).mantissa < 2 ^ 39 := roundedMagnitude_lt .w48 hmag
  have hbits : (params .w48).mantissaBits = 40 := rfl
  rw [normalizedResult, hbits, ← splitNormalizeLoop_splitScaled, splitResult, splitRoundedMagnitude_eq hmag]
  simp only [splitScaled]
  rw [splitSign_splitWords negative (by omega)]

/-! ### The bytes -/

theorem splitPack_splitWords (m xf : Nat) : splitPack (splitWords m) xf = packBytes .w48 m xf := by
  simp only [splitPack, packBytes, splitWords_eq, byteAt, slice_eq, Nat.reduceSub, Nat.reduceAdd, List.cons.injEq,
    and_true, true_and]
  refine ⟨?_, ?_, ?_, ?_, ?_⟩ <;> exact congrArg _ (by omega)

/-- Settles O25. -/
theorem twoWordDatapathAgrees : Obligations.TwoWordDatapathAgrees := by
  intro v
  change splitEncode48 v = encode1750 v (widthCode .w48)
  cases hmag : magnitude v with
  | none => rw [splitEncode48, hmag, encode1750_nonfinite .w48 hmag]
  | some mag =>
    rw [splitEncode48, hmag, encode1750_finite .w48 hmag]
    dsimp only
    rw [splitResult_eq _ hmag, splitScaled, splitPack_splitWords]
    rfl

end Sys2Proof.Machine

/-! The status of a request (60_exceptions.md rules R73 to R75): `Encode1750` answers in exactly one of three ways, the first
chosen by the width alone; O24 and O36 from these. -/

namespace Sys2Proof.Machine

/-- Step 1 tests the width, step 2 the class of the value, and the rest of the conversion cannot fail. -/
theorem encode1750_cases (v : Binary64) (w : WidthCode) :
    (formatOfWidth w = none ∧ encode1750 v w = raiseError .invalidWidth) ∨
    (formatOfWidth w ≠ none ∧ biasedExponent v = 2047 ∧ encode1750 v w = raiseError .nonfiniteInput) ∨
    (formatOfWidth w ≠ none ∧ biasedExponent v ≠ 2047 ∧ (encode1750 v w).status = .ok) := by
  rw [ne_eq (biasedExponent v), ← magnitude_eq_none]
  cases hformat : formatOfWidth w with
  | none => exact .inl ⟨rfl, encode1750_none v hformat⟩
  | some f =>
    obtain rfl := (formatOfWidth_eq_some w f).mp hformat
    refine .inr ?_
    cases hmag : magnitude v with
    | none => exact .inl ⟨Option.some_ne_none f, rfl, encode1750_nonfinite f hmag⟩
    | some mag => exact .inr ⟨Option.some_ne_none f, Option.some_ne_none mag, encode1750_status_ok f hmag⟩

theorem formatOfWidth_ne_none_iff_toNat (w : WidthCode) :
    formatOfWidth w ≠ none ↔ w.toNat = 16 ∨ w.toNat = 32 ∨ w.toNat = 48 := by
  rw [ne_eq, formatOfWidth_eq_none_iff_toNat]
  omega

/-- Settles O24: each of the three answers has its own status. -/
theorem statusByWidthThenClass : Obligations.StatusByWidthThenClass := by
  intro v w
  dsimp only
  rw [← formatOfWidth_ne_none_iff_toNat]
  change _ ∧ (_ ↔ _ ∧ biasedExponent v = 2047) ∧ (_ ↔ _ ∧ biasedExponent v ≠ 2047) ∧ _
  obtain ⟨hwidth, hanswer⟩ | ⟨hwidth, hclass, hanswer⟩ | ⟨hwidth, hclass, hanswer⟩ := encode1750_cases v w
  · simp [hanswer, hwidth, ErrorKind.status]
  · simp [hanswer, hwidth, hclass, ErrorKind.status]
  · simp [hanswer, hwidth, hclass]

/-- Settles O36: the width on the ports names no operation, and the INVALID_WIDTH answer is accepted like any other. -/
theorem otherWidthsAnswered : Obligations.OtherWidthsAnswered := by
  intro s hready hvalid h16 h32 h48
  have hwidth : formatOfWidth s.inputs.inWidth = none := (formatOfWidth_eq_none_iff_toNat _).mpr ⟨h16, h32, h48⟩
  have hdecode : decode (offeredWord s) = .error (.invalidWidth s.inputs.inWidth) :=
    decode_requestWord_of_no_format hwidth s.inputs.inValue
  exact ⟨_, step_of_decode_error hvalid hdecode, clockEdge_edgeAdds_of_ready (raiseError .invalidWidth) hready⟩

end Sys2Proof.Machine

/-! The outputs of a cycle and the edge that ends it, by `rst`, `in_ready` and `out_valid` (70_reset_and_hazards.md rules R82 to
R87): what the ports show, what a cycle without an acceptance leaves out, and O29, O30, O34, O37, O39 and O40 from these. -/

namespace Sys2Proof.Machine

/-! ### The outputs of a cycle -/

theorem outValid_iff (c : Timing) (s : State) :
    s.outValid c = true ↔ s.inputs.rst = false ∧ ∃ e rest, s.queue = e :: rest ∧ c.latency ≤ e.age := by
  cases hq : s.queue with
  | nil => simp [outValid_nil c s hq]
  | cons e rest => simp [outValid_cons c s hq]

/-- The ports show the oldest response of `Q`, or free values. -/
theorem outputs_cases (c : Timing) (s : State) :
    (s.outValid c = false ∧ s.outputs c = freeOutputs (s.inReady c) s.cycle) ∨
    (s.outValid c = true ∧ ∃ e rest, s.queue = e :: rest ∧ s.outputs c = offeredOutputs (s.inReady c) e.rsp) := by
  cases hvalid : s.outValid c with
  | false => exact .inl ⟨rfl, outputs_free c s hvalid⟩
  | true =>
    obtain ⟨_, e, rest, hqueue, _⟩ := (outValid_iff c s).mp hvalid
    exact .inr ⟨rfl, e, rest, hqueue, outputs_offered c s hqueue hvalid⟩

@[simp] theorem outputs_inReady (c : Timing) (s : State) : (s.outputs c).inReady = s.inReady c := by
  obtain ⟨_, houtputs⟩ | ⟨_, e, rest, _, houtputs⟩ := outputs_cases c s <;> rw [houtputs] <;> rfl

@[simp] theorem outputs_outValid (c : Timing) (s : State) : (s.outputs c).outValid = s.outValid c := by
  obtain ⟨hvalid, houtputs⟩ | ⟨hvalid, e, rest, _, houtputs⟩ := outputs_cases c s <;> rw [houtputs, hvalid] <;> rfl

/-! ### Reset -/

theorem inReady_of_reset (c : Timing) {s : State} (hrst : s.inputs.rst = true) : s.inReady c = false := by
  simp [State.inReady, hrst]

theorem outValid_of_reset (c : Timing) {s : State} (hrst : s.inputs.rst = true) : s.outValid c = false := by
  simp [State.outValid, hrst]

theorem step_of_reset {s : State} (hrst : s.inputs.rst = true) : step s = .next (resetEdge s) := by
  rw [step_eq_cycleEdge, cycleEdge_eq, clockEdge_reset _ _ s hrst]

/-- Settles O30: the edge of an operation in reset is a reset edge. -/
theorem operationsIgnoredInReset : Obligations.OperationsIgnoredInReset := by
  intro i s hrst
  refine ⟨resetEdge s, ?_, rfl, rfl, rfl, rfl⟩
  rw [exec_is_edge, clockEdge_reset _ _ s hrst]

/-- Settles O37. -/
theorem oneEdgeResets : Obligations.OneEdgeResets := by
  intro s hrst
  rw [outputs_inReady, outputs_outValid]
  exact ⟨inReady_of_reset _ hrst, outValid_of_reset _ hrst, resetEdge s, step_of_reset hrst, rfl, rfl⟩

/-! ### Acceptance -/

/-- Settles O29: the edge adds what it accepts, and with `in_ready = 0` that is nothing. -/
theorem operationsWaitWhenNotReady : Obligations.OperationsWaitWhenNotReady := by
  intro i s hrst hready
  have hadds := clockEdge_edgeAdds (some (encode1750 i.operand (widthCode i.format))) hrst
  rw [hready] at hadds
  exact ⟨_, exec_is_edge i s, hadds⟩

/-- The entry that step 3 of rule R85 appends. -/
theorem accepted_entries (c : Timing) (s : State) :
    ((if s.inReady c then (offeredResponse s).toList else []).map fun r => ({ rsp := r, age := 1 } : Entry)) =
      if s.inputs.inValid && s.inReady c then [{ rsp := encode1750 s.inputs.inValue s.inputs.inWidth, age := 1 }] else [] := by
  cases hvalid : s.inputs.inValid with
  | false => simp [offeredResponse, hvalid]
  | true => rw [offeredResponse, hvalid, Bool.true_and]; split <;> rfl

theorem cycleEdge_queue (c : Timing) {s : State} (hrst : s.inputs.rst = false) :
    (cycleEdge c s).queue =
      (if s.outValid c && s.inputs.outReady then s.queue.tail else s.queue).map Entry.older ++
        if s.inputs.inValid && s.inReady c then [{ rsp := encode1750 s.inputs.inValue s.inputs.inWidth, age := 1 }] else [] := by
  rw [cycleEdge_eq, clockEdge_queue c _ s hrst, accepted_entries]

/-- Settles O34. -/
theorem cycleFollowsEdgeRule : Obligations.CycleFollowsEdgeRule := by
  intro s
  rw [outputs_inReady, outputs_outValid]
  refine ⟨rfl, outValid_iff _ s, fun e rest hqueue hvalid => ?_, fun hrst => ?_⟩
  · rw [outputs_offered _ s hqueue hvalid]
    exact ⟨rfl, rfl, rfl⟩
  · exact ⟨_, step_eq_cycleEdge s, cycleEdge_queue Config.timing hrst⟩

theorem inputs_replace_request (s : State) (j : Inputs) (rest : List Inputs) :
    State.inputs { s with script := j :: rest } = j :=
  inputs_of_script _ rfl

theorem inReady_replace_request (c : Timing) {s : State} {i j : Inputs} {rest : List Inputs} (hscript : s.script = i :: rest)
    (hrst : j.rst = i.rst) : State.inReady c { s with script := j :: rest } = s.inReady c := by
  rw [State.inReady, State.inReady, inputs_replace_request, inputs_of_script s hscript, hrst]

theorem outValid_replace_request (c : Timing) {s : State} {i j : Inputs} {rest : List Inputs} (hscript : s.script = i :: rest)
    (hrst : j.rst = i.rst) : State.outValid c { s with script := j :: rest } = s.outValid c := by
  rw [State.outValid, State.outValid, inputs_replace_request, inputs_of_script s hscript, hrst]

theorem transferStep_replace_request (c : Timing) {s : State} {i j : Inputs} {rest : List Inputs}
    (hscript : s.script = i :: rest) (hrst : j.rst = i.rst) (hout : j.outReady = i.outReady) :
    transferStep c { s with script := j :: rest } = { transferStep c s with script := j :: rest } := by
  simp only [transferStep, outValid_replace_request c hscript hrst, inputs_replace_request, inputs_of_script s hscript, hout]
  split
  · rfl
  · split <;> rfl

/-- The edge reads `rst` and `out_ready` of the cycle, and of the request only the answer, if it accepts one. -/
theorem clockEdge_replace_request {c : Timing} {s : State} {i j : Inputs} {rest : List Inputs} {offer offer' : Option Response}
    (hscript : s.script = i :: rest) (hrst : j.rst = i.rst) (hout : j.outReady = i.outReady)
    (haccept : s.inReady c = true → offer' = offer) :
    clockEdge c offer' { s with script := j :: rest } = clockEdge c offer s := by
  rw [clockEdge, clockEdge, inputs_replace_request, inputs_of_script s hscript, hrst, inReady_replace_request c hscript hrst,
    transferStep_replace_request c hscript hrst hout]
  cases hready : s.inReady c with
  | false => simp [resetEdge, nextCycle, ageStep, hscript]
  | true => cases offer <;> simp [haccept hready, resetEdge, nextCycle, ageStep, hscript]

/-- Settles O39: in a cycle that is not ready the answer is not read, and without `in_valid` there is none. -/
theorem unacceptedRequestHasNoEffect : Obligations.UnacceptedRequestHasNoEffect := by
  intro s i j rest hscript hrst hout hunaccepted
  rw [step_eq_cycleEdge, step_eq_cycleEdge, cycleEdge_eq, cycleEdge_eq]
  refine congrArg _ (clockEdge_replace_request hscript hrst hout fun hready => ?_)
  obtain hnot | ⟨hi, hj⟩ := hunaccepted
  · exact absurd hready (by simp [hnot])
  · simp [offeredResponse, inputs_replace_request, inputs_of_script s hscript, hi, hj]

/-! ### An offered response -/

/-- Without `out_ready` the oldest entry stays the oldest. -/
theorem cycleEdge_queue_of_not_taken (c : Timing) {s : State} {e : Entry} {rest : List Entry} (hrst : s.inputs.rst = false)
    (hqueue : s.queue = e :: rest) (hout : s.inputs.outReady = false) :
    ∃ newer, (cycleEdge c s).queue = e.older :: newer := by
  rw [cycleEdge_queue c hrst, hout, hqueue, Bool.and_false]
  exact ⟨_, rfl⟩

/-- Settles O40: the entry offered is the oldest in both cycles, and only its age differs. -/
theorem offeredResponseHeld : Obligations.OfferedResponseHeld := by
  intro s t hvalid hout hstep hrst'
  obtain ⟨hrst, e, rest, hqueue, hage⟩ := (outValid_iff _ s).mp hvalid
  obtain rfl := eq_cycleEdge_of_step hstep
  obtain ⟨newer, hqueue'⟩ := cycleEdge_queue_of_not_taken Config.timing hrst hqueue hout
  have hvalid' := (outValid_iff _ _).mpr ⟨hrst', e.older, newer, hqueue', Nat.le_succ_of_le hage⟩
  rw [outputs_offered _ _ hqueue' hvalid', outputs_offered _ s hqueue hvalid]
  refine ⟨hvalid', ?_, rfl, rfl, rfl⟩
  rw [← nextState_eq_cycleEdge, nextState_delivered_of_not_ready s hout]

end Sys2Proof.Machine

/-! Runs of the machine through back-pressure, latency and reset (70_reset_and_hazards.md rules R82, R87 and R89): the inputs and
the last edge of a run, the way of one accepted request to the consumer, and O44 to O47 from these. -/

namespace Sys2Proof.Machine

/-! ### The last edge of a run -/

theorem edgesAfter_succ (c : Timing) (n : Nat) (s : State) : edgesAfter c (n + 1) s = cycleEdge c (edgesAfter c n s) := by
  induction n generalizing s with
  | zero => rfl
  | succ n ih => rw [edgesAfter, ih, edgesAfter]

theorem edgesAfter_inputsAt (c : Timing) (n k : Nat) (s : State) : (edgesAfter c n s).inputsAt k = s.inputsAt (n + k) := by
  induction n generalizing k with
  | zero => rw [edgesAfter, Nat.zero_add]
  | succ n ih =>
    rw [edgesAfter_succ, cycleEdge_eq, inputsAt_of_next _ _ k (clockEdge_script _ _ _) (clockEdge_cycle _ _ _), ih]
    congr 1
    omega

theorem edgesAfter_inputs (c : Timing) (n : Nat) (s : State) : (edgesAfter c n s).inputs = s.inputsAt n :=
  edgesAfter_inputsAt c n 0 s

theorem stateAfter_eq_edgesAfter (n : Nat) (s : State) : stateAfter n s = edgesAfter Config.timing n s := by
  induction n generalizing s with
  | zero => rfl
  | succ n ih => rw [stateAfter, edgesAfter, ih, nextState_eq_cycleEdge]

theorem stateAfter_succ (n : Nat) (s : State) : stateAfter (n + 1) s = nextState (stateAfter n s) := by
  rw [stateAfter_eq_edgesAfter, edgesAfter_succ, stateAfter_eq_edgesAfter, nextState_eq_cycleEdge]

theorem stateAfter_inputs (n : Nat) (s : State) : (stateAfter n s).inputs = s.inputsAt n :=
  stateAfter_inputsAt n 0 s

theorem nextState_edgeAdds {s : State} (hrst : s.inputs.rst = false) :
    EdgeAdds s (nextState s) (if s.inReady Config.timing then (offeredResponse s).toList else []) := by
  rw [nextState_eq_cycleEdge, cycleEdge_eq]
  exact clockEdge_edgeAdds _ hrst

/-! ### Reset -/

theorem nextState_of_reset {s : State} (hrst : s.inputs.rst = true) : nextState s = resetEdge s := by
  rw [nextState, step_of_reset hrst]

/-- Settles O44: the run after the reset edge conserves what it starts from, which is an empty `Q`. -/
theorem resetDropsInFlight : Obligations.ResetDropsInFlight := by
  intro n s hrst hrun
  have hrun' : ∀ k < n, ((nextState s).inputsAt k).rst = false := fun k hk => by
    rw [nextState_inputsAt]
    exact hrun k hk
  rw [stateAfter, stateAfter_conserves n hrun', nextState_of_reset hrst]
  rfl

/-! ### A consumer that never takes -/

/-- One more entry if there is room. -/
theorem nextState_queue_length_of_not_taken {s : State} (hrst : s.inputs.rst = false) (hout : s.inputs.outReady = false)
    (hvalid : s.inputs.inValid = true) (hbounded : s.queue.length ≤ Config.depth) :
    (nextState s).queue.length = min Config.depth (s.queue.length + 1) := by
  have hready : s.inReady Config.timing = decide (s.queue.length < Config.depth) := by
    rw [State.inReady, hrst]
    rfl
  rw [nextState_eq_cycleEdge, cycleEdge_queue _ hrst, hout, hvalid, hready, Bool.and_false, Bool.true_and, List.length_append,
    List.length_map]
  by_cases hroom : s.queue.length < Config.depth
  · rw [decide_eq_true hroom]
    exact (Nat.min_eq_right hroom).symm
  · have hfull : s.queue.length = Config.depth := Nat.le_antisymm hbounded (Nat.not_lt.mp hroom)
    simp [hfull]

theorem stateAfter_queue_length_of_not_taken {n : Nat} {s : State} (hbounded : s.queue.length ≤ Config.depth)
    (hrun : ∀ k < n, (s.inputsAt k).rst = false ∧ (s.inputsAt k).outReady = false ∧ (s.inputsAt k).inValid = true) :
    (stateAfter n s).queue.length = min Config.depth (s.queue.length + n) := by
  induction n with
  | zero => exact (Nat.min_eq_right hbounded).symm
  | succ n ih =>
    have hlength := ih fun k hk => hrun k (Nat.lt_succ_of_lt hk)
    obtain ⟨hrst, hout, hvalid⟩ := hrun n (Nat.lt_succ_self n)
    rw [← stateAfter_inputs] at hrst hout hvalid
    rw [stateAfter_succ, nextState_queue_length_of_not_taken hrst hout hvalid (by omega), hlength]
    omega

/-- Settles O47: nothing is taken, so what a run conserves is all in `Q`. -/
theorem backPressureFillsAndHolds : Obligations.BackPressureFillsAndHolds := by
  intro n s hbounded hrun
  have hlength := stateAfter_queue_length_of_not_taken hbounded hrun
  have hdelivered : (stateAfter n s).delivered = s.delivered :=
    stateAfter_delivered_of_not_ready n s fun k hk => (hrun k hk).2.1
  have hconserved := stateAfter_conserves n fun k hk => (hrun k hk).1
  rw [hdelivered] at hconserved
  refine ⟨hlength, hdelivered, List.append_cancel_left hconserved, fun hfull => ?_⟩
  have hnoroom : ¬ (stateAfter n s).queue.length < Config.timing.depth := by
    rw [hlength, Nat.min_eq_left hfull]
    exact Nat.lt_irrefl _
  exact Bool.eq_false_iff.mpr fun hready => hnoroom ((inReady_iff _ _).mp hready).2

/-! ### The way of one request through `Q` -/

/-- `e` is queued, and `d` responses are taken before it, counting those the consumer has. -/
def QueuedBehind (s : State) (d : Nat) (e : Entry) : Prop :=
  ∃ earlier newer, s.queue = earlier ++ e :: newer ∧ s.delivered.length + earlier.length = d

theorem QueuedBehind.queue_eq_cons {s : State} {e : Entry} {d : Nat} (he : QueuedBehind s d e) (hd : s.delivered.length = d) :
    ∃ newer, s.queue = e :: newer := by
  obtain ⟨earlier, newer, hqueue, hlength⟩ := he
  have hnil : earlier = [] := List.eq_nil_of_length_eq_zero (by omega)
  exact ⟨newer, by rw [hqueue, hnil, List.nil_append]⟩

theorem remaining_length_add_taken_length (s : State) : (taken s).length + (remaining s).length = s.queue.length := by
  rw [taken, remaining]
  split
  · rw [List.length_map, ← List.drop_one, ← List.length_append, List.take_append_drop]
  · exact Nat.zero_add _

/-- The accepted request stands behind everything queued before. -/
theorem nextState_queuedBehind_of_accepted {s : State} (hready : s.inReady Config.timing = true)
    (hvalid : s.inputs.inValid = true) :
    QueuedBehind (nextState s) (s.delivered.length + s.queue.length)
      { rsp := encode1750 s.inputs.inValue s.inputs.inWidth, age := 1 } := by
  obtain ⟨hqueue, hdelivered, _⟩ := nextState_edgeAdds ((inReady_iff _ s).mp hready).1
  rw [hready, offeredResponse, hvalid] at hqueue
  refine ⟨_, [], hqueue, ?_⟩
  rw [hdelivered, List.length_append, List.length_map, Nat.add_assoc, remaining_length_add_taken_length]

theorem remaining_eq_drop (s : State) : remaining s = s.queue.drop (taken s).length := by
  rw [remaining, taken_length]
  split
  · exact List.drop_one.symm
  · rfl

/-- An edge that does not take the entry only makes it older. -/
theorem nextState_queuedBehind {s : State} {d : Nat} {e : Entry} (hrst : s.inputs.rst = false) (he : QueuedBehind s d e)
    (hd : (nextState s).delivered.length ≤ d) : QueuedBehind (nextState s) d e.older := by
  obtain ⟨earlier, newer, hqueue, hlength⟩ := he
  obtain ⟨hqueue', hdelivered, _⟩ := nextState_edgeAdds hrst
  rw [hdelivered, List.length_append] at hd
  have htaken : (taken s).length ≤ earlier.length := by omega
  rw [remaining_eq_drop, hqueue, List.drop_append_of_le_length htaken, List.map_append, List.map_cons, List.append_assoc]
    at hqueue'
  refine ⟨_, _, hqueue', ?_⟩
  rw [hdelivered, List.length_append, List.length_map, List.length_drop]
  omega

theorem stateAfter_delivered_length_mono {n : Nat} {s : State} (hrst : (s.inputsAt n).rst = false) :
    (stateAfter n s).delivered.length ≤ (stateAfter (n + 1) s).delivered.length := by
  rw [← stateAfter_inputs] at hrst
  rw [stateAfter_succ, nextState_delivered_length hrst]
  exact Nat.le_add_right _ _

/-- Until it is taken, an accepted request counts the edges. -/
theorem stateAfter_queuedBehind {s : State} (hvalid : s.inputs.inValid = true) (hready : s.inReady Config.timing = true)
    {k : Nat} (hrst : ∀ j ≤ k, (s.inputsAt j).rst = false)
    (hd : (stateAfter (k + 1) s).delivered.length ≤ s.delivered.length + s.queue.length) :
    QueuedBehind (stateAfter (k + 1) s) (s.delivered.length + s.queue.length)
      { rsp := encode1750 s.inputs.inValue s.inputs.inWidth, age := k + 1 } := by
  induction k with
  | zero => exact nextState_queuedBehind_of_accepted hready hvalid
  | succ k ih =>
    have hlast : (s.inputsAt (k + 1)).rst = false := hrst _ (Nat.le_refl _)
    have hbefore := ih (fun j hj => hrst j (Nat.le_succ_of_le hj)) ((stateAfter_delivered_length_mono hlast).trans hd)
    rw [← stateAfter_inputs] at hlast
    rw [stateAfter_succ] at hd ⊢
    exact nextState_queuedBehind hlast hbefore hd

/-- Once all before it are taken, the request is the oldest entry, of the age rule R87 speaks of. -/
theorem stateAfter_queue_of_earlier_taken {s : State} (hvalid : s.inputs.inValid = true)
    (hready : s.inReady Config.timing = true) {k : Nat} (hrst : ∀ j ≤ k, (s.inputsAt j).rst = false)
    (hd : (stateAfter (k + 1) s).delivered.length = s.delivered.length + s.queue.length) :
    ∃ newer, (stateAfter (k + 1) s).queue =
      { rsp := encode1750 s.inputs.inValue s.inputs.inWidth, age := k + 1 } :: newer :=
  (stateAfter_queuedBehind hvalid hready hrst hd.le).queue_eq_cons hd

/-- Settles O45: the oldest entry is the request's, and its age is the number of edges. -/
theorem offeredFromLatency : Obligations.OfferedFromLatency := by
  intro s k hvalid hready hrst hd
  obtain ⟨newer, hqueue⟩ :=
    stateAfter_queue_of_earlier_taken hvalid hready (fun j hj => hrst j (Nat.le_succ_of_le hj)) hd
  have hoffered : (stateAfter (k + 1) s).outValid Config.timing = true ↔ Config.latency ≤ k + 1 := by
    rw [outValid_cons _ _ hqueue, stateAfter_inputs, hrst _ (Nat.le_refl _)]
    exact decide_eq_true_iff
  exact ⟨hoffered, fun hlatency => outputs_offered _ _ hqueue (hoffered.mpr hlatency)⟩

/-! ### A request alone in `Q` -/

theorem nextState_delivered {s : State} (hrst : s.inputs.rst = false) : (nextState s).delivered = s.delivered ++ taken s :=
  (nextState_edgeAdds hrst).2.1

theorem taken_of_not_offered {s : State} (hvalid : s.outValid Config.timing = false) : taken s = [] := by
  simp [taken, transfers, hvalid]

theorem taken_of_offered {s : State} {e : Entry} {rest : List Entry} (hqueue : s.queue = e :: rest)
    (hvalid : s.outValid Config.timing = true) (hout : s.inputs.outReady = true) : taken s = [e.rsp] := by
  simp [taken, transfers, hvalid, hout, hqueue]

/-- The request is the first to be taken, and that not before LATENCY. -/
theorem stateAfter_delivered_until_latency {s : State} (hempty : s.queue = []) (hvalid : s.inputs.inValid = true)
    (hready : s.inReady Config.timing = true) {n : Nat} (hn : n ≤ Config.latency)
    (hrst : ∀ k ≤ Config.latency, (s.inputsAt k).rst = false) : (stateAfter n s).delivered = s.delivered := by
  induction n with
  | zero => rfl
  | succ n ih =>
    have hbefore := ih (Nat.le_of_succ_le hn)
    have hlast : (stateAfter n s).inputs.rst = false := by
      rw [stateAfter_inputs]
      exact hrst n (Nat.le_of_succ_le hn)
    have hnotOffered : (stateAfter n s).outValid Config.timing = false := by
      cases n with
      | zero => exact outValid_nil _ _ hempty
      | succ k =>
        obtain ⟨hoffered, _⟩ := offeredFromLatency s k hvalid hready (fun j hj => hrst j (by omega)) (by simp [hbefore, hempty])
        exact Bool.eq_false_iff.mpr (mt hoffered.mp (Nat.not_le.mpr hn))
    rw [stateAfter_succ, nextState_delivered hlast, taken_of_not_offered hnotOffered, List.append_nil, hbefore]

/-- Settles O46: after LATENCY edges the request is offered to a consumer that takes it. -/
theorem transferredAtLatency : Obligations.TransferredAtLatency := by
  intro s hempty hvalid hrun
  have hrst : ∀ k ≤ Config.latency, (s.inputsAt k).rst = false := fun k hk => (hrun k hk).1
  have hready : s.inReady Config.timing = true := by
    rw [inReady_nil config_timing_legal hempty, ← inputsAt_zero, hrst 0 (Nat.zero_le _)]
    rfl
  have hdelivered := stateAfter_delivered_until_latency hempty hvalid hready (Nat.le_refl _) hrst
  have hlength : (stateAfter Config.latency s).delivered.length = s.delivered.length + s.queue.length := by
    simp [hdelivered, hempty]
  obtain ⟨newer, hqueue⟩ : ∃ newer, (stateAfter Config.latency s).queue =
      { rsp := encode1750 s.inputs.inValue s.inputs.inWidth, age := Config.latency } :: newer :=
    stateAfter_queue_of_earlier_taken hvalid hready (fun j hj => hrst j (Nat.le_succ_of_le hj)) hlength
  obtain ⟨hlast, hout⟩ := hrun _ (Nat.le_refl _)
  rw [← stateAfter_inputs] at hlast hout
  have hoffered := (outValid_iff Config.timing _).mpr ⟨hlast, _, _, hqueue, Nat.le_refl _⟩
  exact ⟨hdelivered, by rw [stateAfter_succ, nextState_delivered hlast, taken_of_offered hqueue hoffered hout, hdelivered]⟩

end Sys2Proof.Machine

/-! The flow of one request per cycle (70_reset_and_hazards.md rule R90): while every cycle accepts a request and the consumer
takes what is offered, the ages in `Q` are consecutive, up to LATENCY; and O48 from these. -/

namespace Sys2Proof.Machine

/-! ### Consecutive ages -/

/-- The ages `m`, …, 2, 1. -/
def agesDownFrom : Nat → List Nat
  | 0 => []
  | m + 1 => (m + 1) :: agesDownFrom m

theorem agesDownFrom_length (m : Nat) : (agesDownFrom m).length = m := by
  induction m with
  | zero => rfl
  | succ m ih => rw [agesDownFrom, List.length_cons, ih]

/-- One edge later, with a new entry. -/
theorem agesDownFrom_older_append_new (m : Nat) : (agesDownFrom m).map (· + 1) ++ [1] = agesDownFrom (m + 1) := by
  induction m with
  | zero => rfl
  | succ m ih => rw [agesDownFrom, List.map_cons, List.cons_append, ih, ← agesDownFrom]

theorem map_age_older (q : List Entry) : (q.map Entry.older).map Entry.age = (q.map Entry.age).map (· + 1) := by
  simp [Function.comp_def]

/-! ### One cycle of the flow -/

/-- The ports of a cycle outside reset with a request and a consumer that takes. -/
def Inputs.Flowing (i : Inputs) : Prop := i.rst = false ∧ i.outReady = true ∧ i.inValid = true

/-- The oldest of `m` consecutive ages is offered exactly when LATENCY of them are queued. -/
theorem outValid_of_agesDownFrom {c : Timing} (hc : c.Legal) {s : State} {m : Nat} (hrst : s.inputs.rst = false)
    (hages : s.queue.map Entry.age = agesDownFrom m) : s.outValid c = decide (c.latency ≤ m) := by
  cases m with
  | zero =>
    have hpos : ¬ c.latency ≤ 0 := Nat.not_le.mpr hc.1
    rw [outValid_nil c s (List.map_eq_nil_iff.mp hages), decide_eq_false hpos]
  | succ m =>
    obtain ⟨e, rest, hqueue, hage, _⟩ := List.map_eq_cons_iff.mp hages
    rw [outValid_cons c s hqueue, hrst, hage]
    rfl

theorem inReady_of_agesDownFrom {c : Timing} {s : State} {m : Nat} (hrst : s.inputs.rst = false)
    (hages : s.queue.map Entry.age = agesDownFrom m) : s.inReady c = decide (m < c.depth) := by
  have hlength : s.queue.length = m := by rw [← List.length_map Entry.age, hages, agesDownFrom_length]
  rw [State.inReady, hrst, hlength]
  rfl

/-- An accepting cycle adds an age below LATENCY, and from there on replaces the oldest. -/
theorem cycleEdge_agesDownFrom {c : Timing} (hc : c.Legal) {s : State} {m : Nat} (hflow : s.inputs.Flowing)
    (hages : s.queue.map Entry.age = agesDownFrom m) (hm : m ≤ c.latency) (hroom : m < c.depth) :
    (cycleEdge c s).queue.map Entry.age = agesDownFrom (min (m + 1) c.latency) := by
  obtain ⟨hrst, hout, hvalid⟩ := hflow
  have hready : s.inReady c = true := by rw [inReady_of_agesDownFrom hrst hages, decide_eq_true hroom]
  rw [cycleEdge_queue c hrst, outValid_of_agesDownFrom hc hrst hages, hout, hvalid, hready, Bool.and_true, List.map_append,
    map_age_older]
  obtain hlt | rfl := Nat.lt_or_eq_of_le hm
  · rw [decide_eq_false (Nat.not_le.mpr hlt), Nat.min_eq_left hlt, ← agesDownFrom_older_append_new, ← hages]
    rfl
  · obtain ⟨l, hl⟩ : ∃ l, c.latency = l + 1 := Nat.exists_eq_add_of_le' hc.1
    have htail : s.queue.tail.map Entry.age = agesDownFrom l := by rw [List.map_tail, hages, hl, agesDownFrom, List.tail_cons]
    rw [decide_eq_true (Nat.le_refl _), if_pos rfl, htail, Nat.min_eq_right (Nat.le_succ _), hl,
      ← agesDownFrom_older_append_new]
    rfl

/-! ### The run -/

/-- Every cycle before the `k`-th has room, because there are fewer than DEPTH of them or LATENCY is less. -/
theorem edgesAfter_agesDownFrom {c : Timing} (hc : c.Legal) {s : State} (hempty : s.queue = []) {k : Nat}
    (hflow : ∀ j < k, (s.inputsAt j).Flowing) (hroom : k ≤ c.depth ∨ c.latency < c.depth) :
    (edgesAfter c k s).queue.map Entry.age = agesDownFrom (min k c.latency) := by
  induction k with
  | zero => rw [edgesAfter, hempty, Nat.zero_min]; rfl
  | succ k ih =>
    have hbefore := ih (fun j hj => hflow j (Nat.lt_succ_of_lt hj)) (hroom.imp_left Nat.le_of_succ_le)
    have hlast : (edgesAfter c k s).inputs.Flowing := by
      rw [edgesAfter_inputs]
      exact hflow k (Nat.lt_succ_self k)
    rw [edgesAfter_succ, cycleEdge_agesDownFrom hc hlast hbefore (Nat.min_le_right _ _) (by omega)]
    congr 1
    omega

theorem edgesAfter_inReady {c : Timing} (hc : c.Legal) {s : State} (hempty : s.queue = []) {k : Nat}
    (hflow : ∀ j ≤ k, (s.inputsAt j).Flowing) (hroom : k ≤ c.depth ∨ c.latency < c.depth) :
    (edgesAfter c k s).inReady c = decide (min k c.latency < c.depth) := by
  refine inReady_of_agesDownFrom ?_ (edgesAfter_agesDownFrom hc hempty (fun j hj => hflow j hj.le) hroom)
  rw [edgesAfter_inputs]
  exact (hflow k (Nat.le_refl k)).1

/-- Settles O48: `Q` holds the smaller of LATENCY and the number of cycles, as long as that fits. -/
theorem oneRequestPerCycle : Obligations.OneRequestPerCycle := by
  intro c s n hc hempty hflow
  refine ⟨fun hdepth k hk => ?_, fun hdepth hn => ?_⟩
  · rw [edgesAfter_inReady hc hempty (fun j hj => hflow j (hj.trans hk)) (.inr hdepth)]
    exact decide_eq_true (Nat.lt_of_le_of_lt (Nat.min_le_right _ _) hdepth)
  · rw [edgesAfter_inReady hc hempty (fun j hj => hflow j (hj.trans hn)) (.inl (Nat.le_refl _)), Nat.min_eq_left hdepth]
    exact decide_eq_false (Nat.lt_irrefl _)

end Sys2Proof.Machine

/-! Four request words of 95_test_vectors.md, by the exact conditions under which a word decodes (30_encoding.md rules R36
and R45); O2 from this. -/

namespace Sys2Proof.Machine

/-- Settles O2: three of the words are the encodings of their operations, and the width field of the fourth selects no
format. -/
theorem vectorWordsDecode : Obligations.VectorWordsDecode :=
  ⟨(decode_eq_ok_iff _ _).mpr (by decide), (decode_eq_ok_iff _ _).mpr (by decide), (decode_eq_ok_iff _ _).mpr (by decide),
    (decode_eq_error_iff _ _).mpr ⟨by decide, by decide⟩⟩

end Sys2Proof.Machine
